-- ==== Sys2Proof/Word.lean ====
section
/-! DEFINITION. The word types of the block: what the spec treats as bits, each at the spec's width. -/

namespace Sys2Proof

/-- A command word, `CMD_W` = 11 bits (00_scope.md R5, 30_encoding.md R70). -/
abbrev CmdWord := BitVec 11

/-- The operand field of a command word, `ARG_W` = 9 bits (00_scope.md R5, 30_encoding.md R70). -/
abbrev Arg := BitVec 9

/-- A code of the code table, `CODE_W` = 12 bits (00_scope.md R5). -/
abbrev Code := BitVec 12

/-- A byte of the output (20_memory.md R56). -/
abbrev Byte := BitVec 8

end Sys2Proof
end

