-- ==== Sys2Proof/Config.lean ====
section
/-! DEFINITION. The constants of the block (00_scope.md R5). The spec leaves none of them as a parameter and the
block has no implementation-defined value, so nothing here is free. -/

namespace Sys2Proof.Config

/-- `MAX_ENTRIES`: the number of code table entries at which the table is cleared (00_scope.md R5). -/
abbrev maxEntries : Nat := 4096

/-- The number of words of `DICT`, addressed by a 12-bit code (10_state.md R31). -/
abbrev dictWords : Nat := 4096

/-- `MAX_CW`: the largest code width in bits (00_scope.md R5). -/
abbrev maxCw : Nat := 12

/-- `MIN_MCS`: the smallest `minimumCodeSize` (00_scope.md R5). -/
abbrev minMcs : Nat := 2

/-- `MIN_CTS`: the smallest colour table size (00_scope.md R5). -/
abbrev minCts : Nat := 2

/-- `MAX_CTS`: the largest colour table size (00_scope.md R5). -/
abbrev maxCts : Nat := 256

/-- `CMD_W`: the width of the command word (00_scope.md R5). -/
abbrev cmdW : Nat := 11

end Sys2Proof.Config
end

