-- ==== Sys2Proof/Syntax.lean ====
section
/-! DEFINITION. The commands: one constructor per row of spec/opcode_table.json. -/

namespace Sys2Proof

/-- A command word, decoded. The nine rows `ILLEGAL.END_ARG.b<n>` carry the whole operand field, whose lowest set bit
is bit `n` (`Instr.wf` checks it); the row `ILLEGAL.OP3` admits any operand field. -/
inductive Instr where
  /-- `START cts` (30_encoding.md R72). -/
  | start (cts : Arg)
  /-- `SYM k` (30_encoding.md R73). -/
  | sym (k : Arg)
  /-- `END` (30_encoding.md R74). -/
  | endCmd
  /-- Reserved: `op` = 10, lowest set bit of `arg` is bit 0 (30_encoding.md R75 b). -/
  | illegalEndArgB0 (arg : Arg)
  /-- Reserved: `op` = 10, lowest set bit of `arg` is bit 1 (30_encoding.md R75 b). -/
  | illegalEndArgB1 (arg : Arg)
  /-- Reserved: `op` = 10, lowest set bit of `arg` is bit 2 (30_encoding.md R75 b). -/
  | illegalEndArgB2 (arg : Arg)
  /-- Reserved: `op` = 10, lowest set bit of `arg` is bit 3 (30_encoding.md R75 b). -/
  | illegalEndArgB3 (arg : Arg)
  /-- Reserved: `op` = 10, lowest set bit of `arg` is bit 4 (30_encoding.md R75 b). -/
  | illegalEndArgB4 (arg : Arg)
  /-- Reserved: `op` = 10, lowest set bit of `arg` is bit 5 (30_encoding.md R75 b). -/
  | illegalEndArgB5 (arg : Arg)
  /-- Reserved: `op` = 10, lowest set bit of `arg` is bit 6 (30_encoding.md R75 b). -/
  | illegalEndArgB6 (arg : Arg)
  /-- Reserved: `op` = 10, lowest set bit of `arg` is bit 7 (30_encoding.md R75 b). -/
  | illegalEndArgB7 (arg : Arg)
  /-- Reserved: `op` = 10, lowest set bit of `arg` is bit 8 (30_encoding.md R75 b). -/
  | illegalEndArgB8 (arg : Arg)
  /-- Reserved: `op` = 11 (30_encoding.md R75 a). -/
  | illegalOp3 (arg : Arg)
deriving DecidableEq, Repr

end Sys2Proof
end

