-- ==== Sys2Proof/WellFormed.lean ====
section
/-! DEFINITION. Which terms of `Instr` are command words: the check of each constructor's operand. -/

namespace Sys2Proof

/-- Bit `n` of `arg` is its lowest set bit: the constraint of the row `ILLEGAL.END_ARG.b<n>` of the opcode table. -/
def lowestSetBitIs (n : Nat) (arg : Arg) : Bool :=
  arg.toNat % 2 ^ (n + 1) == 2 ^ n

/-- The check. `START` and `SYM` decode for all 512 operands (30_encoding.md R72, R73) and `ILLEGAL.OP3` admits any
operand field; an operand the command refuses when it is executed is no matter of form. -/
def Instr.wf : Instr → Bool
  | .start _ => true
  | .sym _ => true
  | .endCmd => true
  | .illegalEndArgB0 arg => lowestSetBitIs 0 arg
  | .illegalEndArgB1 arg => lowestSetBitIs 1 arg
  | .illegalEndArgB2 arg => lowestSetBitIs 2 arg
  | .illegalEndArgB3 arg => lowestSetBitIs 3 arg
  | .illegalEndArgB4 arg => lowestSetBitIs 4 arg
  | .illegalEndArgB5 arg => lowestSetBitIs 5 arg
  | .illegalEndArgB6 arg => lowestSetBitIs 6 arg
  | .illegalEndArgB7 arg => lowestSetBitIs 7 arg
  | .illegalEndArgB8 arg => lowestSetBitIs 8 arg
  | .illegalOp3 _ => true

end Sys2Proof
end

