-- ==== Sys2Proof/Decode.lean ====
section
/-! DEFINITION. From command words to commands and back, and the opcode table's rows. -/

namespace Sys2Proof

/-- The field `op` = bits 10:9 of a command word (30_encoding.md R70). -/
def opField (w : CmdWord) : BitVec 2 := w.extractLsb' 9 2

/-- The field `arg` = bits 8:0 of a command word (30_encoding.md R70). -/
def argField (w : CmdWord) : Arg := w.extractLsb' 0 9

/-- The words with `op` = 10: `END` when the operand is 0 (30_encoding.md R74), else the reserved row named by the
lowest set bit of the operand (30_encoding.md R75 b). -/
def decodeEnd (arg : Arg) : Instr :=
  if arg.getLsbD 0 then .illegalEndArgB0 arg
  else if arg.getLsbD 1 then .illegalEndArgB1 arg
  else if arg.getLsbD 2 then .illegalEndArgB2 arg
  else if arg.getLsbD 3 then .illegalEndArgB3 arg
  else if arg.getLsbD 4 then .illegalEndArgB4 arg
  else if arg.getLsbD 5 then .illegalEndArgB5 arg
  else if arg.getLsbD 6 then .illegalEndArgB6 arg
  else if arg.getLsbD 7 then .illegalEndArgB7 arg
  else if arg.getLsbD 8 then .illegalEndArgB8 arg
  else .endCmd

/-- The decoder of command words, total on them (30_encoding.md R71, R75): the field `op` selects the command. -/
def decode (w : CmdWord) : Instr :=
  if opField w = 0#2 then .start (argField w)
  else if opField w = 1#2 then .sym (argField w)
  else if opField w = 2#2 then decodeEnd (argField w)
  else .illegalOp3 (argField w)

/-- Why a number is no command word. -/
inductive DecodeReject where
  /-- The number has a set bit above bit 10: it is no 11-bit word (30_encoding.md R70), so no command port carries it. -/
  | notElevenBits
deriving DecidableEq, Repr

/-- A number as a command word: the port `cmd` is 11 bits wide (30_encoding.md R68), so a wider number is rejected by
name and never cut short (log entry 13). -/
def portWord (v : Nat) : Except DecodeReject CmdWord :=
  if v < 2 ^ Config.cmdW then .ok (BitVec.ofNat 11 v) else .error .notElevenBits

/-- The decoder on any number. -/
def decodeNumber (v : Nat) : Except DecodeReject Instr :=
  match portWord v with
  | .ok w => .ok (decode w)
  | .error r => .error r

/-- Bits as bytes, the less significant byte first, as one number. -/
def numberOfBytes : List Byte → Nat
  | [] => 0
  | b :: rest => b.toNat + 256 * numberOfBytes rest

/-- The decoder on any bytes: the number they make, less significant byte first (log entry 13: the block stores no
command in bytes, so the order is the model's). -/
def decodeBytes (bs : List Byte) : Except DecodeReject Instr :=
  decodeNumber (numberOfBytes bs)

/-- The command the decoder reads from a row's word, whose bits are numbered as the opcode table numbers them: bit 0 is
bit 0 of the 11-bit word. Every bit at and above `nbits` is 0. -/
def decodeTableWord (nbits w : Nat) : Option Instr :=
  match decodeNumber (w % 2 ^ nbits) with
  | .ok i => some i
  | .error _ => none

/-- A command word from its two fields (30_encoding.md R70): `op` in bits 10:9, `arg` in bits 8:0. -/
def cmdWord (op : BitVec 2) (arg : Arg) : CmdWord := op ++ arg

/-- The encoder (30_encoding.md R72 to R75). -/
def encode : Instr → CmdWord
  | .start cts => cmdWord 0 cts
  | .sym k => cmdWord 1 k
  | .endCmd => cmdWord 2 0
  | .illegalEndArgB0 arg => cmdWord 2 arg
  | .illegalEndArgB1 arg => cmdWord 2 arg
  | .illegalEndArgB2 arg => cmdWord 2 arg
  | .illegalEndArgB3 arg => cmdWord 2 arg
  | .illegalEndArgB4 arg => cmdWord 2 arg
  | .illegalEndArgB5 arg => cmdWord 2 arg
  | .illegalEndArgB6 arg => cmdWord 2 arg
  | .illegalEndArgB7 arg => cmdWord 2 arg
  | .illegalEndArgB8 arg => cmdWord 2 arg
  | .illegalOp3 arg => cmdWord 3 arg

/-- A row of the opcode table: a word `w` is the row's when `w &&& mask = pattern`. -/
structure OpcodeRow where
  mnemonic : String
  pattern : CmdWord
  mask : CmdWord
deriving DecidableEq, Repr

/-- A row's test of a word. -/
def OpcodeRow.matchesWord (r : OpcodeRow) (w : CmdWord) : Bool := w &&& r.mask == r.pattern

/-- The row of each constructor, with the table's own `match` and `mask`. -/
def Instr.row : Instr → OpcodeRow
  | .start _ => ⟨"START", 0x000#11, 0x600#11⟩
  | .sym _ => ⟨"SYM", 0x200#11, 0x600#11⟩
  | .endCmd => ⟨"END", 0x400#11, 0x7FF#11⟩
  | .illegalEndArgB0 _ => ⟨"ILLEGAL.END_ARG.b0", 0x401#11, 0x601#11⟩
  | .illegalEndArgB1 _ => ⟨"ILLEGAL.END_ARG.b1", 0x402#11, 0x603#11⟩
  | .illegalEndArgB2 _ => ⟨"ILLEGAL.END_ARG.b2", 0x404#11, 0x607#11⟩
  | .illegalEndArgB3 _ => ⟨"ILLEGAL.END_ARG.b3", 0x408#11, 0x60F#11⟩
  | .illegalEndArgB4 _ => ⟨"ILLEGAL.END_ARG.b4", 0x410#11, 0x61F#11⟩
  | .illegalEndArgB5 _ => ⟨"ILLEGAL.END_ARG.b5", 0x420#11, 0x63F#11⟩
  | .illegalEndArgB6 _ => ⟨"ILLEGAL.END_ARG.b6", 0x440#11, 0x67F#11⟩
  | .illegalEndArgB7 _ => ⟨"ILLEGAL.END_ARG.b7", 0x480#11, 0x6FF#11⟩
  | .illegalEndArgB8 _ => ⟨"ILLEGAL.END_ARG.b8", 0x500#11, 0x7FF#11⟩
  | .illegalOp3 _ => ⟨"ILLEGAL.OP3", 0x600#11, 0x600#11⟩

/-- The opcode table: its thirteen rows, in the table's order. -/
def opcodeTable : List OpcodeRow :=
  [(Instr.start 0).row, (Instr.sym 0).row, Instr.endCmd.row] ++
  [(Instr.illegalEndArgB0 0).row, (Instr.illegalEndArgB1 0).row, (Instr.illegalEndArgB2 0).row,
   (Instr.illegalEndArgB3 0).row, (Instr.illegalEndArgB4 0).row, (Instr.illegalEndArgB5 0).row,
   (Instr.illegalEndArgB6 0).row, (Instr.illegalEndArgB7 0).row, (Instr.illegalEndArgB8 0).row] ++
  [(Instr.illegalOp3 0).row]

end Sys2Proof
end

