-- ==== Sys2Proof/Machine/State.lean ====
section
/-! DEFINITION. The state of the block as plain data, the reasons a step can stop, and the state after reset. -/

namespace Sys2Proof.Machine

/-- The sequencing state `ST` (10_state.md R29). Its value 3 is never taken (93_implementation_defined.md U6), so the
type has three values (log entry 10). -/
inductive St where
  /-- 0: no frame in progress. -/
  | idle
  /-- 1: a frame is in progress. -/
  | active
  /-- 2: a fault was taken. -/
  | err
deriving DecidableEq, Repr

/-- The fault code `ERRC` (10_state.md R30, 60_exceptions.md R151). Its values 5 to 7 are never taken (log entry 10). -/
inductive ErrCode where
  /-- 0: no fault since reset. -/
  | noFault
  /-- 1: `BAD_CTS`. -/
  | badCts
  /-- 2: `BAD_INDEX`. -/
  | badIndex
  /-- 3: `PROTOCOL`. -/
  | protocol
  /-- 4: `ILLEGAL_CMD`. -/
  | illegalCmd
deriving DecidableEq, Repr

/-- A word of `DICT`, 20 bits: `pfx` is bits 19:8 and `sym` is bits 7:0 (20_memory.md R51). -/
structure DictWord where
  pfx : Code
  sym : Byte
deriving DecidableEq, Repr

/-- The dictionary memory: the words that have a value, each with its address (10_state.md R31). The form is canonical:
`Memory.wf`. -/
abbrev Memory := List (Nat × DictWord)

/-- What an address that is not listed reads as: no value (10_state.md R44 "unspecified", 20_memory.md R64; log entry 4). -/
def Memory.unlisted : Option DictWord := none

/-- The canonical form of a memory: addresses strictly rising, each an address of one of the 4096 words. No entry can
equal what an unlisted address reads as, which is no value. -/
abbrev Memory.wf (m : Memory) : Prop :=
  m.Pairwise (fun a b => a.1 < b.1) ∧ ∀ e ∈ m, e.1 < Config.dictWords

/-- A delivered byte with its marker (20_memory.md R56). -/
structure OutByte where
  data : Byte
  last : Bool
deriving DecidableEq, Repr

/-- What the host presents: a command word on `cmd`, or the RESET event on `rst` (30_encoding.md R68,
70_reset_and_hazards.md R180). -/
inductive Event where
  | cmd (w : CmdWord)
  | reset
deriving DecidableEq, Repr

/-- The whole state of the block (10_state.md R20), and beside it the two sequences of its environment (10_state.md R32;
log entry 1). -/
structure State where
  /-- `CTS` (10_state.md R21). -/
  cts : BitVec 9
  /-- `MCS` (10_state.md R22). -/
  mcs : BitVec 4
  /-- `CW` (10_state.md R23). -/
  cw : BitVec 4
  /-- `NEXT` (10_state.md R24). -/
  next : BitVec 13
  /-- `CUR` (10_state.md R25). -/
  cur : Code
  /-- `PV` (10_state.md R26). -/
  pv : Bool
  /-- `ACC` (10_state.md R27). -/
  acc : BitVec 7
  /-- `NB` (10_state.md R28). -/
  nb : BitVec 3
  /-- `ST` (10_state.md R29). -/
  st : St
  /-- `ERRC` (10_state.md R30). -/
  errc : ErrCode
  /-- `DICT` (10_state.md R31). -/
  dict : Memory
  /-- `OUT`: the bytes delivered, oldest first (10_state.md R32). Environment, not state of the block. -/
  out : List OutByte
  /-- The events the host will present, the next one first (10_state.md R32, 20_memory.md R65). Environment. -/
  input : List Event
deriving DecidableEq, Repr

/-- What stops the machine. The block's own faults (60_exceptions.md R151) are no stops: taking one is a next state. -/
inductive Fault where
  /-- Raised by the store of `SYM`'s miss branch when `NEXT` is 4096 or more: `DICT` has 4096 words (10_state.md R31), so
  the word does not exist. Safe, and no run reaches it: `NEXT` ≤ 4095 between steps (10_state.md R39; log entry 5). -/
  | noSuchDictWord
deriving DecidableEq, Repr

/-- Why an instruction has no meaning here. -/
inductive Refusal where
  /-- An instruction the model has not reached. Raised by no arm: every command word has its meaning. Safe. -/
  | notModelled (mnemonic : String)
deriving DecidableEq, Repr

/-- The state right after RESET (10_state.md R44): `IDLE`, no fault, every other register 0, no word of `DICT` with a
value; nothing delivered and nothing presented yet (log entries 1 and 3). -/
def State.reset : State where
  cts := 0
  mcs := 0
  cw := 0
  next := 0
  cur := 0
  pv := false
  acc := 0
  nb := 0
  st := .idle
  errc := .noFault
  dict := []
  out := []
  input := []

end Sys2Proof.Machine
end

