-- ==== Sys2Proof/Machine/Operands.lean ====
section
/-! DEFINITION. The operands of the commands and the values derived from `MCS`; the status outputs as bits. -/

namespace Sys2Proof.Machine

/-- The legal colour table sizes (00_scope.md R6). -/
def legalCts : List Nat := [2, 4, 8, 16, 32, 64, 128, 256]

/-- `cts` is a legal operand of `START` (00_scope.md R6, 60_exceptions.md R152). -/
def ctsIsLegal (cts : Arg) : Bool := legalCts.contains cts.toNat

/-- `minimumCodeSize` of a table size: `max(2, log2(cts))` (00_scope.md R7). -/
def minCodeSize (cts : Arg) : Nat := max Config.minMcs (Nat.log2 cts.toNat)

/-- `CLR` = `2^MCS` (00_scope.md R8). -/
def clrCode (mcs : BitVec 4) : Nat := 2 ^ mcs.toNat

/-- `EOI` = `2^MCS + 1` (00_scope.md R8). -/
def eoiCode (mcs : BitVec 4) : Nat := 2 ^ mcs.toNat + 1

/-- `FIRST` = `2^MCS + 2` (00_scope.md R8). -/
def firstCode (mcs : BitVec 4) : Nat := 2 ^ mcs.toNat + 2

/-- The index `k` is in the alphabet: `k < CTS`, on the full 9-bit operand (60_exceptions.md R153, 41_symbol.md R130). -/
def indexIsLegal (k : Arg) (cts : BitVec 9) : Bool := k.toNat < cts.toNat

/-- The code of the single-index phrase `[k]`: the index itself (41_symbol.md R120 "CUR <- k"). -/
def literalCode (k : Arg) : Code := k.zeroExtend 12

/-- `k[7:0]`, the field `sym` of a dictionary word (41_symbol.md R120). -/
def symField (k : Arg) : Byte := k.extractLsb' 0 8

/-- A dictionary word as its 20 bits: `pfx` in 19:8, `sym` in 7:0 (20_memory.md R51). -/
def dictWordBits (w : DictWord) : BitVec 20 := w.pfx ++ w.sym

/-- The encoding of `ST` (10_state.md R29). -/
def stBits : St → BitVec 2
  | .idle => 0
  | .active => 1
  | .err => 2

/-- The encoding of `ERRC` (60_exceptions.md R151). -/
def errBits : ErrCode → BitVec 3
  | .noFault => 0
  | .badCts => 1
  | .badIndex => 2
  | .protocol => 3
  | .illegalCmd => 4

/-- The status output `st` (30_encoding.md R68, 10_state.md R45). -/
def statusSt (s : State) : BitVec 2 := stBits s.st

/-- The status output `errc` (30_encoding.md R68, 10_state.md R45). -/
def statusErrc (s : State) : BitVec 3 := errBits s.errc

/-- The status output `mcs`: KGIF7's `minimumCodeSize()` (40_frame_control.md R106). -/
def statusMcs (s : State) : BitVec 4 := s.mcs

end Sys2Proof.Machine
end

