-- ==== Sys2Proof/Machine/Flags.lean ====
section
/-! DEFINITION. The conditions of the block: its one flag `PV`, the visible comparison `ST = ERR`, and the two tests of
a miss. No command sets any other flag (10_state.md R26, R34). -/

namespace Sys2Proof.Machine

/-- `PV <- 1`: the current phrase is not empty (10_state.md R26). -/
def setPv (s : State) : State := { s with pv := true }

/-- `PV <- 0`: the current phrase is empty (10_state.md R26). -/
def clearPv (s : State) : State := { s with pv := false }

/-- The host-visible condition `ST = ERR` (10_state.md R34). -/
def isErr (s : State) : Bool := s.st == .err

/-- The growth test: the code `n` just given equals `2^CW`, compared as integers (41_symbol.md R125, R131). -/
def growthDue (n : Nat) (cw : BitVec 4) : Bool := n == 2 ^ cw.toNat

/-- The table is full: `NEXT = 4096` (41_symbol.md R126, 00_scope.md R10). -/
def tableIsFull (next : BitVec 13) : Bool := next.toNat == Config.maxEntries

end Sys2Proof.Machine
end

