-- ==== Sys2Proof/Machine/Ops.lean ====
section
/-! DEFINITION. The named operations: the dictionary memory, the bit packer and its output, fault entry and RESET, and
taking the next event. -/

namespace Sys2Proof.Machine

/-! The dictionary memory. -/

/-- `DICT[c]` (20_memory.md R51): the word at address `c`, or no value where nothing has been written. -/
def Memory.read (c : Nat) : Memory → Option DictWord
  | [] => Memory.unlisted
  | (a, w) :: rest => if a = c then some w else Memory.read c rest

/-- `DICT[c] <- w` (20_memory.md R54), kept in canonical form. -/
def Memory.write (c : Nat) (w : DictWord) : Memory → Memory
  | [] => [(c, w)]
  | (a, v) :: rest =>
    if c < a then (c, w) :: (a, v) :: rest
    else if c = a then (c, w) :: rest
    else (a, v) :: Memory.write c w rest

/-- The entry of the memory at address `c` is valid and holds the pair `(p, k)`: `FIRST ≤ c < NEXT`, `pfx = p` and
`sym = k` (20_memory.md R53). -/
def holdsPair (first next : Nat) (p : Code) (k : Nat) (e : Nat × DictWord) : Bool :=
  decide (first ≤ e.1) && decide (e.1 < next) && (e.2.pfx == p) && (e.2.sym.toNat == k)

/-- `DictLookup(p, k)` (20_memory.md R53): the code of the valid word that holds the pair, or none. At most one word does
(10_state.md R41), so the order of the search does not matter. A word without a value holds no pair (log entry 4). -/
def dictLookup (p : Code) (k : Nat) (s : State) : Option Nat :=
  (s.dict.find? (holdsPair (firstCode s.mcs) s.next.toNat p k)).map (·.1)

/-! The bit packer. -/

/-- The loop of `EMIT` (42_bit_packing.md R140), run `count` times on the temporary `t`: each turn sends out the oldest
eight bits with `last` = 0. -/
def outBytes : (count : Nat) → (t : Nat) → List OutByte
  | 0, _ => []
  | count + 1, t => ⟨BitVec.ofNat 8 t, false⟩ :: outBytes count (t >>> 8)

/-- `EMIT(code, w)` (42_bit_packing.md R140). The loop runs while eight bits are there, that is `(NB + w) / 8` times. -/
def emit (code w : Nat) (s : State) : State :=
  let t := s.acc.toNat ||| (code <<< s.nb.toNat)
  let n := s.nb.toNat + w
  { s with
    out := s.out ++ outBytes (n / 8) t
    acc := BitVec.ofNat 7 (t >>> (8 * (n / 8)))
    nb := BitVec.ofNat 3 (n % 8) }

/-- A list of bytes with the marker of its final byte set. -/
def markLast : List OutByte → List OutByte
  | [] => []
  | [b] => [{ b with last := true }]
  | b :: c :: rest => b :: markLast (c :: rest)

/-- `FLUSH()` (42_bit_packing.md R142). `before` is how many bytes stood in `OUT` when the step began: the byte whose
marker the `else` case sets is one of this step's own, delivered with the marker (log entry 12). -/
def flush (before : Nat) (s : State) : State :=
  if 0 < s.nb.toNat then
    { s with out := s.out ++ [⟨s.acc.zeroExtend 8, true⟩], acc := 0, nb := 0 }
  else
    { s with out := s.out.take before ++ markLast (s.out.drop before) }

/-! Fault entry, and RESET, the only way out of `ERR`. -/

/-- `raise Fault(c)` (60_exceptions.md R157): `ST <- ERR`, `ERRC <- c`, and nothing else. -/
def raiseFault (c : ErrCode) (s : State) : State := { s with st := .err, errc := c }

/-- The RESET event (70_reset_and_hazards.md R180): every register at its reset value, no word of `DICT` with a value,
nothing appended to `OUT` and nothing withdrawn from it (20_memory.md R56; log entry 7). There is no other return from a
fault (60_exceptions.md R159). -/
def resetBlock (s : State) : State := { State.reset with out := s.out, input := s.input }

/-! The command input. -/

/-- The next event the host presents, and the state with it consumed (20_memory.md R65). -/
def takeEvent (s : State) : Option (Event × State) :=
  match s.input with
  | [] => none
  | e :: rest => some (e, { s with input := rest })

/-- The state with one more event to be presented before all others. -/
def presentFirst (e : Event) (s : State) : State := { s with input := e :: s.input }

end Sys2Proof.Machine
end

