-- ==== Sys2Proof/Machine/FrameControl.lean ====
section
/-! DEFINITION. The meanings of `START` and `END` (40_frame_control.md). -/

namespace Sys2Proof.Machine

/-- The registers `START` sets (40_frame_control.md R100), before the CLEAR code goes out. -/
def openFrame (cts : Arg) (s : State) : State :=
  let m := minCodeSize cts
  clearPv { s with
    cts := cts
    mcs := BitVec.ofNat 4 m
    cw := BitVec.ofNat 4 (m + 1)
    next := BitVec.ofNat 13 (2 ^ m + 2)
    acc := 0
    nb := 0
    st := .active }

/-- `START cts` with a legal operand in `IDLE`: the frame is opened and the CLEAR code emitted (40_frame_control.md R100). -/
def beginFrame (cts : Arg) (s : State) : State :=
  let s1 := openFrame cts s
  emit (clrCode s1.mcs) s1.cw.toNat s1

/-- `START cts` (40_frame_control.md R100; the order of the checks is 60_exceptions.md R156). -/
def execStart (cts : Arg) (s : State) : Host.Outcome State Fault Refusal :=
  match s.st with
  | .err => .next s
  | .active => .next (raiseFault .protocol s)
  | .idle => if ctsIsLegal cts then .next (beginFrame cts s) else .next (raiseFault .badCts s)

/-- The code of the phrase that remains, if one does, at the width in force (40_frame_control.md R103, R104). -/
def emitRemaining (s : State) : State :=
  if s.pv then emit s.cur.toNat s.cw.toNat s else s

/-- `END` in `ACTIVE` (40_frame_control.md R103): the remaining phrase's code, END-OF-INFORMATION at the same width, the
flush; then `PV <- 0` and `ST <- IDLE`. -/
def finishFrame (s : State) : State :=
  let s1 := emitRemaining s
  let s2 := emit (eoiCode s1.mcs) s1.cw.toNat s1
  let s3 := flush s.out.length s2
  { clearPv s3 with st := .idle }

/-- `END` (40_frame_control.md R103). -/
def execEnd (s : State) : Host.Outcome State Fault Refusal :=
  match s.st with
  | .err => .next s
  | .idle => .next (raiseFault .protocol s)
  | .active => .next (finishFrame s)

end Sys2Proof.Machine
end

