-- ==== Sys2Proof/Machine/Illegal.lean ====
section
/-! DEFINITION. The meanings of the reserved command words (30_encoding.md R75, 60_exceptions.md R155). Each takes the
fault `ILLEGAL_CMD`, which records neither the word nor its operand (60_exceptions.md R151). -/

namespace Sys2Proof.Machine

/-- A reserved word: ignored in `ERR` (60_exceptions.md R158), else the fault `ILLEGAL_CMD`, whatever `ST` is
(60_exceptions.md R155, R156). -/
def takeIllegal (s : State) : State :=
  match s.st with
  | .err => s
  | .idle => raiseFault .illegalCmd s
  | .active => raiseFault .illegalCmd s

/-- `ILLEGAL.END_ARG.b0` (30_encoding.md R75 b, 60_exceptions.md R155). -/
def execIllegalEndArgB0 (_arg : Arg) (s : State) : Host.Outcome State Fault Refusal := .next (takeIllegal s)

/-- `ILLEGAL.END_ARG.b1` (30_encoding.md R75 b, 60_exceptions.md R155). -/
def execIllegalEndArgB1 (_arg : Arg) (s : State) : Host.Outcome State Fault Refusal := .next (takeIllegal s)

/-- `ILLEGAL.END_ARG.b2` (30_encoding.md R75 b, 60_exceptions.md R155). -/
def execIllegalEndArgB2 (_arg : Arg) (s : State) : Host.Outcome State Fault Refusal := .next (takeIllegal s)

/-- `ILLEGAL.END_ARG.b3` (30_encoding.md R75 b, 60_exceptions.md R155). -/
def execIllegalEndArgB3 (_arg : Arg) (s : State) : Host.Outcome State Fault Refusal := .next (takeIllegal s)

/-- `ILLEGAL.END_ARG.b4` (30_encoding.md R75 b, 60_exceptions.md R155). -/
def execIllegalEndArgB4 (_arg : Arg) (s : State) : Host.Outcome State Fault Refusal := .next (takeIllegal s)

/-- `ILLEGAL.END_ARG.b5` (30_encoding.md R75 b, 60_exceptions.md R155). -/
def execIllegalEndArgB5 (_arg : Arg) (s : State) : Host.Outcome State Fault Refusal := .next (takeIllegal s)

/-- `ILLEGAL.END_ARG.b6` (30_encoding.md R75 b, 60_exceptions.md R155). -/
def execIllegalEndArgB6 (_arg : Arg) (s : State) : Host.Outcome State Fault Refusal := .next (takeIllegal s)

/-- `ILLEGAL.END_ARG.b7` (30_encoding.md R75 b, 60_exceptions.md R155). -/
def execIllegalEndArgB7 (_arg : Arg) (s : State) : Host.Outcome State Fault Refusal := .next (takeIllegal s)

/-- `ILLEGAL.END_ARG.b8` (30_encoding.md R75 b, 60_exceptions.md R155). -/
def execIllegalEndArgB8 (_arg : Arg) (s : State) : Host.Outcome State Fault Refusal := .next (takeIllegal s)

/-- `ILLEGAL.OP3` (30_encoding.md R75 a, 60_exceptions.md R155). -/
def execIllegalOp3 (_arg : Arg) (s : State) : Host.Outcome State Fault Refusal := .next (takeIllegal s)

end Sys2Proof.Machine
end

