-- ==== Sys2Proof/Machine/Symbol.lean ====
section
/-! DEFINITION. The meaning of `SYM` (41_symbol.md R120), branch by branch. -/

namespace Sys2Proof.Machine

/-- Case (A), the first index of a frame (41_symbol.md R121): `CUR <- k`, `PV <- 1`. -/
def firstIndex (k : Arg) (s : State) : State := setPv { s with cur := literalCode k }

/-- Case (B), a match at the code `c` (41_symbol.md R122): `CUR <- c`. -/
def adoptMatch (c : Nat) (s : State) : State := { s with cur := BitVec.ofNat 12 c }

/-- Second act of a miss (41_symbol.md R124): the extended phrase gets the code `NEXT`, as the pair (`CUR`, `k[7:0]`). -/
def addEntry (k : Arg) (s : State) : State :=
  { s with
    dict := s.dict.write s.next.toNat ⟨s.cur, symField k⟩
    next := BitVec.ofNat 13 (s.next.toNat + 1) }

/-- Width growth (41_symbol.md R125), tested on the code `n` just given to the new entry. -/
def growWidth (n : Nat) (s : State) : State :=
  if growthDue n s.cw then { s with cw := BitVec.ofNat 4 (s.cw.toNat + 1) } else s

/-- The table and the width go back to the initial state; no word of `DICT` is written (20_memory.md R55). -/
def clearTable (s : State) : State :=
  { s with next := BitVec.ofNat 13 (firstCode s.mcs), cw := BitVec.ofNat 4 (s.mcs.toNat + 1) }

/-- Clear on a full table (41_symbol.md R126): CLEAR at the width now in force, then the initial table and width. -/
def clearIfFull (s : State) : State :=
  if tableIsFull s.next then clearTable (emit (clrCode s.mcs) s.cw.toNat s) else s

/-- Case (C), a miss, all its acts in order (41_symbol.md R123 to R127). -/
def missIndex (k : Arg) (s : State) : State :=
  let s1 := emit s.cur.toNat s.cw.toNat s
  let s2 := addEntry k s1
  let s3 := growWidth s1.next.toNat s2
  let s4 := clearIfFull s3
  { s4 with cur := literalCode k }

/-- A miss: its store goes to the word `NEXT`, which must exist (10_state.md R31; log entry 5). -/
def execMiss (k : Arg) (s : State) : Host.Outcome State Fault Refusal :=
  if s.next.toNat < Config.dictWords then .next (missIndex k s) else .fault .noSuchDictWord

/-- `SYM k` with a legal index in `ACTIVE`: the three branches of 41_symbol.md R120. -/
def acceptIndex (k : Arg) (s : State) : Host.Outcome State Fault Refusal :=
  if s.pv then
    match dictLookup s.cur k.toNat s with
    | some c => .next (adoptMatch c s)
    | none => execMiss k s
  else .next (firstIndex k s)

/-- `SYM k` (41_symbol.md R120; the order of the checks is 60_exceptions.md R156). -/
def execSym (k : Arg) (s : State) : Host.Outcome State Fault Refusal :=
  match s.st with
  | .err => .next s
  | .idle => .next (raiseFault .protocol s)
  | .active => if indexIsLegal k s.cts then acceptIndex k s else .next (raiseFault .badIndex s)

end Sys2Proof.Machine
end

