-- ==== Sys2Proof/Machine/Dispatch.lean ====
section
/-! DEFINITION. The dispatch: one arm per command, each one call of its meaning (30_encoding.md R71). -/

namespace Sys2Proof.Machine

def exec (i : Instr) (s : State) : Host.Outcome State Fault Refusal :=
  match i with
  | .start cts => Sys2Proof.Machine.execStart cts s
  | .sym k => Sys2Proof.Machine.execSym k s
  | .endCmd => Sys2Proof.Machine.execEnd s
  | .illegalEndArgB0 arg => Sys2Proof.Machine.execIllegalEndArgB0 arg s
  | .illegalEndArgB1 arg => Sys2Proof.Machine.execIllegalEndArgB1 arg s
  | .illegalEndArgB2 arg => Sys2Proof.Machine.execIllegalEndArgB2 arg s
  | .illegalEndArgB3 arg => Sys2Proof.Machine.execIllegalEndArgB3 arg s
  | .illegalEndArgB4 arg => Sys2Proof.Machine.execIllegalEndArgB4 arg s
  | .illegalEndArgB5 arg => Sys2Proof.Machine.execIllegalEndArgB5 arg s
  | .illegalEndArgB6 arg => Sys2Proof.Machine.execIllegalEndArgB6 arg s
  | .illegalEndArgB7 arg => Sys2Proof.Machine.execIllegalEndArgB7 arg s
  | .illegalEndArgB8 arg => Sys2Proof.Machine.execIllegalEndArgB8 arg s
  | .illegalOp3 arg => Sys2Proof.Machine.execIllegalOp3 arg s

end Sys2Proof.Machine
end

