-- ==== Sys2Proof/Machine/Step.lean ====
section
/-! DEFINITION. One step of the machine, and how a command word is presented to it. -/

namespace Sys2Proof.Machine

/-- One step: the acceptance of one command word, or one RESET event (00_scope.md R9, 20_memory.md R65). With nothing
presented the block waits and keeps its state (60_exceptions.md R166; log entry 2). -/
def step (s : State) : Host.Outcome State Fault Refusal :=
  match takeEvent s with
  | none => .next s
  | some (.reset, s1) => .next (resetBlock s1)
  | some (.cmd w, s1) => exec (decode w) s1

/-- `s` with the given word presented before all others, so that the next step runs it (log entry 3). The block fetches
nothing: it takes the word the host presents (10_state.md R33). A number wider than 11 bits is no command word and is not
presented (log entry 13). -/
def State.withFetchWord (s : State) (nbits w : Nat) : State :=
  match portWord (w % 2 ^ nbits) with
  | .ok c => presentFirst (.cmd c) s
  | .error _ => s

end Sys2Proof.Machine
end

