-- ==== Sys2Proof/Safety.lean ====
section
/-! DEFINITION. What counts as a safe run: the invariants the spec states between steps (10_state.md R37 to R42), the
states a run reaches, and the events of a whole frame. -/

namespace Sys2Proof.Machine

/-- The registers and words of a block that has begun a frame since RESET (10_state.md R37 to R41). -/
structure Configured (s : State) : Prop where
  /-- 10_state.md R37: `CTS` is 2, 4, ..., 256. -/
  ctsLegal : ∃ n, 1 ≤ n ∧ n ≤ 8 ∧ s.cts.toNat = 2 ^ n
  /-- 10_state.md R37: `MCS = max(2, log2(CTS))`. -/
  mcsOfCts : s.mcs.toNat = max 2 (Nat.log2 s.cts.toNat)
  /-- 10_state.md R38. -/
  cwLow : s.mcs.toNat + 1 ≤ s.cw.toNat
  /-- 10_state.md R38. -/
  cwHigh : s.cw.toNat ≤ 12
  /-- 10_state.md R39: `FIRST ≤ NEXT`. -/
  nextLow : firstCode s.mcs ≤ s.next.toNat
  /-- 10_state.md R39: `NEXT ≤ 4095`. -/
  nextHigh : s.next.toNat ≤ 4095
  /-- 10_state.md R39: `2^(CW-1) < NEXT`. -/
  nextAboveHalf : 2 ^ (s.cw.toNat - 1) < s.next.toNat
  /-- 10_state.md R39: `NEXT ≤ 2^CW`. -/
  nextWithin : s.next.toNat ≤ 2 ^ s.cw.toNat
  /-- 10_state.md R40: the current phrase's code is a literal code or a phrase code of the table. -/
  curIsEntry : s.pv = true →
    s.cur.toNat < s.cts.toNat ∨ (firstCode s.mcs ≤ s.cur.toNat ∧ s.cur.toNat < s.next.toNat)
  /-- 10_state.md R41: every valid word has a value, whose prefix is a literal code or an earlier phrase code, and whose
  index is in the alphabet. -/
  wordsValid : ∀ c, c < s.next.toNat → firstCode s.mcs ≤ c →
    ∃ w, s.dict.read c = some w ∧
      (w.pfx.toNat < s.cts.toNat ∨ (firstCode s.mcs ≤ w.pfx.toNat ∧ w.pfx.toNat < c)) ∧
      w.sym.toNat < s.cts.toNat
  /-- 10_state.md R41: no two valid words hold the same pair. -/
  pairsDistinct : ∀ d, d < s.next.toNat → ∀ c, c < d → firstCode s.mcs ≤ c → s.dict.read c ≠ s.dict.read d

/-- The registers and words of a block that has begun no frame since RESET (10_state.md R44). -/
structure Unconfigured (s : State) : Prop where
  cts : s.cts = 0
  mcs : s.mcs = 0
  cw : s.cw = 0
  next : s.next = 0
  cur : s.cur = 0
  pv : s.pv = false
  acc : s.acc = 0
  nb : s.nb = 0
  dict : s.dict = []

/-- The invariant of the machine between steps. -/
structure Inv (s : State) : Prop where
  /-- The memory keeps its canonical form. -/
  dictWf : s.dict.wf
  /-- 10_state.md R42: `ACC < 2^NB`. -/
  accWithin : s.acc.toNat < 2 ^ s.nb.toNat
  /-- 10_state.md R30: `ERRC ≠ 0` exactly when `ST = ERR`. -/
  errcExactlyInErr : s.errc ≠ .noFault ↔ s.st = .err
  /-- Either no frame was begun since RESET, or the registers are those of one. -/
  begunOrNot : Unconfigured s ∨ Configured s
  /-- 10_state.md section 10: the frame invariants hold in `ACTIVE`. -/
  activeConfigured : s.st = .active → Configured s
  /-- 10_state.md R42: in `IDLE`, `NB = 0` and `ACC = 0`; and `PV = 0` there (10_state.md R26, R44). -/
  idleEmpty : s.st = .idle → s.pv = false ∧ s.acc = 0 ∧ s.nb = 0

/-- What a step of an open frame needs of the widths (10_state.md R37 to R40, R42), whatever the dictionary holds. -/
structure WidthsHold (s : State) : Prop where
  mcsLow : 2 ≤ s.mcs.toNat
  mcsHigh : s.mcs.toNat ≤ 8
  cwLow : s.mcs.toNat + 1 ≤ s.cw.toNat
  cwHigh : s.cw.toNat ≤ 12
  nextHigh : s.next.toNat ≤ 4095
  nextAboveHalf : 2 ^ (s.cw.toNat - 1) < s.next.toNat
  nextWithin : s.next.toNat ≤ 2 ^ s.cw.toNat
  curFits : s.pv = true → s.cur.toNat < 2 ^ s.cw.toNat
  accWithin : s.acc.toNat < 2 ^ s.nb.toNat

/-- Some valid word of `DICT` holds the pair (`p`, `k`), at the code `c` (20_memory.md R53). -/
def HoldsPairAt (s : State) (p : Code) (k c : Nat) : Prop :=
  firstCode s.mcs ≤ c ∧ c < s.next.toNat ∧
    ∃ w, s.dict.read c = some w ∧ w.pfx = p ∧ w.sym.toNat = k

/-- A reserved command word, decoded (30_encoding.md R75). -/
def isReserved : Instr → Bool
  | .start _ => false
  | .sym _ => false
  | .endCmd => false
  | .illegalEndArgB0 _ => true
  | .illegalEndArgB1 _ => true
  | .illegalEndArgB2 _ => true
  | .illegalEndArgB3 _ => true
  | .illegalEndArgB4 _ => true
  | .illegalEndArgB5 _ => true
  | .illegalEndArgB6 _ => true
  | .illegalEndArgB7 _ => true
  | .illegalEndArgB8 _ => true
  | .illegalOp3 _ => true

/-- A legal operand of `START`: 2, 4, ..., 256 (00_scope.md R6), as a power of two. -/
def IsTableSize (cts : Arg) : Prop := ∃ n, 1 ≤ n ∧ n ≤ 8 ∧ cts.toNat = 2 ^ n

/-- The state after the fault `c` was taken in `s`: `ST` and `ERRC` and nothing else (60_exceptions.md R157). -/
def faulted (s : State) (c : ErrCode) : State := { s with st := .err, errc := c }

/-- The states a run reaches: after RESET with any events to come, and from there step by step. -/
inductive Reachable : State → Prop where
  | afterReset (events : List Event) : Reachable { State.reset with input := events }
  | next {s t : State} : Reachable s → step s = .next t → Reachable t

/-- The pseudo-command `ENCODE cts, [k0, ..., kn-1]` as the events it stands for (30_encoding.md R77). -/
def encodeEvents (cts : Arg) (ks : List Arg) : List Event :=
  .cmd (encode (.start cts)) :: (ks.map fun k => Event.cmd (encode (.sym k))) ++ [.cmd (encode .endCmd)]

end Sys2Proof.Machine
end

