-- ==== Sys2Proof/Safety/Reference.lean ====
section
/-! DEFINITION. What the spec says of a whole frame, apart from the machine: the phrase a code stands for
(10_state.md R36), the closed packing formula (30_encoding.md R81) and the phrase-level encoder (41_symbol.md R133). -/

namespace Sys2Proof.Reference

open Sys2Proof.Machine

/-! The packing formula. A list of codes is a list of pairs (code, width), in order of emission. -/

/-- `S`: each code shifted left by the total width of the codes before it (30_encoding.md R81). -/
def streamValue : List (Nat × Nat) → Nat
  | [] => 0
  | (code, w) :: rest => code + 2 ^ w * streamValue rest

/-- `B`: the total width (30_encoding.md R81). -/
def streamBits : List (Nat × Nat) → Nat
  | [] => 0
  | (_, w) :: rest => w + streamBits rest

/-- Byte `j` of a stream: `(S >> (8*j)) & 0xFF` (30_encoding.md R81). -/
def streamByte (value j : Nat) : Byte := BitVec.ofNat 8 (value / 2 ^ (8 * j))

/-- The first `n` bytes of a stream, none of them marked. -/
def plainBytes (value n : Nat) : List OutByte :=
  (List.range n).map fun j => ⟨streamByte value j, false⟩

/-- The bytes of a finished stream: `ceil(B / 8)` of them, the final one marked (30_encoding.md R81, R84). -/
def frameBytes (codes : List (Nat × Nat)) : List OutByte :=
  let n := (streamBits codes + 7) / 8
  (List.range n).map fun j => ⟨streamByte (streamValue codes) j, j + 1 == n⟩

/-- The bits pending in `s`, as the first code of a stream: `NB` bits of value `ACC`. -/
def pending (s : State) : Nat × Nat := (s.acc.toNat, s.nb.toNat)

/-- `t` is what is left of `s` in the packer and in `OUT` after the given codes were emitted: the bytes that became
complete are delivered unmarked, the rest is pending (42_bit_packing.md R145). -/
structure Emitted (codes : List (Nat × Nat)) (s t : State) : Prop where
  out : t.out = s.out ++
    plainBytes (streamValue (pending s :: codes)) (streamBits (pending s :: codes) / 8)
  acc : t.acc.toNat =
    streamValue (pending s :: codes) / 2 ^ (8 * (streamBits (pending s :: codes) / 8))
  nb : t.nb.toNat = streamBits (pending s :: codes) % 8

/-! The phrase of a code. -/

/-- The recursion of `phrase(c)` (10_state.md R36), cut off after `fuel` prefixes. -/
def phraseWithin (m : Nat) (dict : Memory) : (fuel : Nat) → (c : Nat) → List Nat
  | 0, _ => []
  | fuel + 1, c =>
    if c < 2 ^ m then [c]
    else match dict.read c with
      | none => []
      | some w => phraseWithin m dict fuel w.pfx.toNat ++ [w.sym.toNat]

/-- `phrase(c)` (10_state.md R36). A prefix is smaller than its code (10_state.md R41), so `c + 1` turns are enough. -/
def phrase (s : State) (c : Nat) : List Nat := phraseWithin s.mcs.toNat s.dict (c + 1) c

/-- The current phrase: empty when `PV = 0`, else the phrase of `CUR` (10_state.md R35). -/
def currentPhrase (s : State) : List Nat := if s.pv then phrase s s.cur.toNat else []

/-- `c` is the code of a phrase of the table: a literal code or a phrase code (10_state.md R35). -/
def IsPhraseCode (s : State) (c : Nat) : Prop :=
  c < 2 ^ s.mcs.toNat ∨ (firstCode s.mcs ≤ c ∧ c < s.next.toNat)

/-! The phrase-level encoder of a whole frame. -/

/-- The variables of 41_symbol.md R133: `codes`, the multi-index entries of `T`, `next`, `w` and `P`. -/
structure Encoder where
  codes : List (Nat × Nat)
  table : List (List Nat × Nat)
  next : Nat
  w : Nat
  p : List Nat
deriving DecidableEq, Repr

/-- `T[P]`: the literal codes are entries of every table; the empty phrase has no code (90_conflicts.md C7). -/
def codeOf (m : Nat) (table : List (List Nat × Nat)) : List Nat → Option Nat
  | [] => none
  | [i] => if i < 2 ^ m then some i else none
  | i :: j :: rest => (table.find? fun e => e.1 == i :: j :: rest).map (·.2)

/-- The first line of 41_symbol.md R133. -/
def Encoder.init (m : Nat) : Encoder := ⟨[(2 ^ m, m + 1)], [], 2 ^ m + 2, m + 1, []⟩

/-- The code of the current phrase at the current width; nothing for the empty phrase. -/
def Encoder.phraseCode (m : Nat) (e : Encoder) : List (Nat × Nat) :=
  (codeOf m e.table e.p).toList.map fun c => (c, e.w)

/-- One turn of the loop of 41_symbol.md R133. -/
def Encoder.turn (m : Nat) (e : Encoder) (k : Nat) : Encoder :=
  match codeOf m e.table (e.p ++ [k]) with
  | some _ => { e with p := e.p ++ [k] }
  | none =>
    let codes := e.codes ++ e.phraseCode m
    let w := if e.next = 2 ^ e.w then e.w + 1 else e.w
    if e.next + 1 = 4096 then ⟨codes ++ [(2 ^ m, w)], [], 2 ^ m + 2, m + 1, [k]⟩
    else ⟨codes, e.table ++ [(e.p ++ [k], e.next)], e.next + 1, w, [k]⟩

/-- The codes after the loop: the remaining phrase's, then END-OF-INFORMATION. -/
def Encoder.finish (m : Nat) (e : Encoder) : List (Nat × Nat) :=
  e.codes ++ e.phraseCode m ++ [(2 ^ m + 1, e.w)]

/-- The codes of a frame (41_symbol.md R133), with the width `m = MCS`. -/
def frameCodes (m : Nat) (ks : List Nat) : List (Nat × Nat) :=
  (ks.foldl (Encoder.turn m) (Encoder.init m)).finish m

/-! The shape of a frame's codes. -/

/-- The codes of a frame as its opening CLEAR, the codes `mid` between, and END-OF-INFORMATION at the width `w`. -/
def framed (m : Nat) (mid : List (Nat × Nat)) (w : Nat) : List (Nat × Nat) :=
  (2 ^ m, m + 1) :: mid ++ [(2 ^ m + 1, w)]

/-- The shape of the codes of a frame of `cts` colours, with `m = MCS` and the indices `ks` (30_encoding.md R78 to R80,
R82, R83). -/
structure FrameShape (cts m : Nat) (ks : List Nat) (mid : List (Nat × Nat)) (w : Nat) : Prop where
  /-- R78, R79: every code fits its width, and the widths are `MCS + 1` to 12. -/
  widths : ∀ p ∈ framed m mid w, p.1 < 2 ^ p.2 ∧ m + 1 ≤ p.2 ∧ p.2 ≤ 12
  /-- R78, R83: between, only indices of the alphabet, CLEAR and phrase codes up to 4094. -/
  classes : ∀ p ∈ mid, p.1 < cts ∨ p.1 = 2 ^ m ∨ (2 ^ m + 2 ≤ p.1 ∧ p.1 ≤ 4094)
  /-- R82: after a CLEAR that is not followed by END-OF-INFORMATION comes an index of the alphabet. -/
  afterClear : ∀ pre a b post, (2 ^ m, m + 1) :: mid = pre ++ a :: b :: post → a.1 = 2 ^ m → b.1 < cts
  /-- R82: without an index the frame is CLEAR and END-OF-INFORMATION. -/
  noIndex : ks = [] → mid = []
  /-- R82: with one, the code before END-OF-INFORMATION is not CLEAR. -/
  beforeEnd : ks ≠ [] → ∃ first p, mid = first ++ [p] ∧ p.1 ≠ 2 ^ m
  /-- R80: the width of a code is the number of bits of `FIRST + i - 2`, where the code is the `i`-th after the last
  CLEAR, that is `i - 1` codes lie between. -/
  widthOfPosition : ∀ pre x run p post, (2 ^ m, m + 1) :: mid = pre ++ (2 ^ m, x) :: run ++ p :: post →
    (∀ q ∈ run, q.1 ≠ 2 ^ m) → p.1 ≠ 2 ^ m → p.2 = Nat.log2 (2 ^ m + 1 + run.length) + 1
  /-- R80: a CLEAR other than the first comes when `FIRST + i = 4096`, `i` codes after the last one, at width 12. -/
  laterClear : ∀ pre x run y post, (2 ^ m, m + 1) :: mid = pre ++ (2 ^ m, x) :: run ++ (2 ^ m, y) :: post →
    (∀ q ∈ run, q.1 ≠ 2 ^ m) → y = 12 ∧ 2 ^ m + 2 + run.length = 4096
  /-- R80: END-OF-INFORMATION has the width of the code before it. -/
  endWidth : ∀ pre p, (2 ^ m, m + 1) :: mid = pre ++ [p] → w = p.2

end Sys2Proof.Reference
end

