-- ==== Sys2Proof/Certificates/Slice0/Obligations.lean ====
section
/-! DEFINITION. The statements for the provers. Each is a rule of the spec, or follows from rules; nothing is proved here. -/

open Sys2Proof Sys2Proof.Machine Sys2Proof.Reference

/-! ## Encoding -/

/-- Decoding an encoded well-formed command gives it back, for every operand its row admits (30_encoding.md R70 to R75). -/
def Obligations.DecodeOfEncodeIsTheCommand : Prop :=
  ∀ i : Instr, i.wf = true → decode (encode i) = i

/-- Every 11-bit word decodes to a well-formed command whose word it is: no word has two meanings (30_encoding.md R75). -/
def Obligations.EncodeOfDecodeIsTheWord : Prop :=
  ∀ w : CmdWord, (decode w).wf = true ∧ encode (decode w) = w

/-- Every 11-bit word matches exactly one row of the opcode table, the row of the command it decodes to (INDEX.md;
30_encoding.md, opening paragraph). -/
def Obligations.EveryWordMatchesExactlyItsRow : Prop :=
  ∀ w : CmdWord, opcodeTable.filter (fun r => r.matchesWord w) = [(decode w).row]

/-- Words written out from the encodings of 30_encoding.md R72 to R75 decode to the commands they stand for. -/
def Obligations.WrittenWordsDecode : Prop :=
  decode 0b00000000100#11 = .start 4 ∧ decode 0b00100000000#11 = .start 256 ∧
  decode 0b01000000011#11 = .sym 3 ∧ decode 0b01111111111#11 = .sym 511 ∧
  decode 0b10000000000#11 = .endCmd ∧ decode 0b10000000001#11 = .illegalEndArgB0 1 ∧
  decode 0b10100000000#11 = .illegalEndArgB8 256 ∧ decode 0b10110101000#11 = .illegalEndArgB3 0b110101000#9 ∧
  decode 0b11000000000#11 = .illegalOp3 0

/-- 30_encoding.md R75: the reserved words are those with `op` = 11 and those with `op` = 10 and a non-zero operand, every
other word is `START`, `SYM` or `END`, and executing a reserved word faults with `ILLEGAL_CMD` (ignored in `ERR`). -/
def Obligations.ReservedWordsAreIllegal : Prop :=
  ∀ w : CmdWord,
    (isReserved (decode w) = true ↔ opField w = 3#2 ∨ (opField w = 2#2 ∧ argField w ≠ 0)) ∧
    (isReserved (decode w) = false →
      decode w = .start (argField w) ∨ decode w = .sym (argField w) ∨ decode w = .endCmd) ∧
    (isReserved (decode w) = true → ∀ s : State, s.st ≠ .err → exec (decode w) s = .next (faulted s .illegalCmd))

/-! ## A step -/

/-- A step runs the command its presented word decodes to, on the state with the word consumed (20_memory.md R65). -/
def Obligations.StepRunsTheDecodedCommand : Prop :=
  ∀ (s : State) (w : CmdWord) (rest : List Event) (i : Instr),
    s.input = .cmd w :: rest → decode w = i → step s = exec i { s with input := rest }

/-- 20_memory.md R65: the step for one command does not depend on the commands after it. -/
def Obligations.CommandsDoNotLookAhead : Prop :=
  ∀ (i : Instr) (s : State) (later : List Event),
    (∀ t, exec i s = .next t → exec i { s with input := later } = .next { t with input := later }) ∧
    (∀ r, exec i s = .fault r → exec i { s with input := later } = .fault r)

/-- 10_state.md R44: the registers after RESET, in whatever state it occurs. -/
def Obligations.ResetSetsEveryRegister : Prop :=
  ∀ (s : State) (rest : List Event), s.input = .reset :: rest →
    ∃ t, step s = .next t ∧ t.st = .idle ∧ t.errc = .noFault ∧ t.cts = 0 ∧ t.mcs = 0 ∧ t.cw = 0 ∧ t.next = 0 ∧
      t.cur = 0 ∧ t.pv = false ∧ t.acc = 0 ∧ t.nb = 0

/-- After RESET the block is as one that has never run, but for what the environment keeps: the bytes delivered
(20_memory.md R56) and the events to come. That no word of `DICT` has a value then is the model's choice (log entry 4), and
so is keeping the later events (log entry 7). -/
def Obligations.ResetGivesTheResetState : Prop :=
  ∀ (s : State) (rest : List Event), s.input = .reset :: rest →
    step s = .next { State.reset with out := s.out, input := rest }

/-- With nothing presented the block waits and keeps its state (60_exceptions.md R166; that waiting is a step is the model's
choice, log entry 2). -/
def Obligations.WithoutAnEventTheBlockWaits : Prop :=
  ∀ s : State, s.input = [] → step s = .next s

/-! ## Faults -/

/-- 60_exceptions.md R156: the order of the checks, for every word in every state. -/
def Obligations.FaultChecksInOrder : Prop :=
  ∀ (s : State) (w : CmdWord) (rest : List Event), s.input = .cmd w :: rest →
    (s.st = .err → step s = .next { s with input := rest }) ∧
    (s.st ≠ .err → isReserved (decode w) = true → step s = .next (faulted { s with input := rest } .illegalCmd)) ∧
    (∀ cts, decode w = .start cts →
      (s.st = .active → step s = .next (faulted { s with input := rest } .protocol)) ∧
      (s.st = .idle → ¬ IsTableSize cts → step s = .next (faulted { s with input := rest } .badCts))) ∧
    (∀ k, decode w = .sym k →
      (s.st = .idle → step s = .next (faulted { s with input := rest } .protocol)) ∧
      (s.st = .active → s.cts.toNat ≤ k.toNat → step s = .next (faulted { s with input := rest } .badIndex))) ∧
    (decode w = .endCmd → s.st = .idle → step s = .next (faulted { s with input := rest } .protocol))

/-- 60_exceptions.md R160: whether a command faults, and with which code, depends on the command, `ST` and `CTS` alone. -/
def Obligations.FaultsDependOnStAndCtsAlone : Prop :=
  ∀ (i : Instr) (s s' t t' : State), s.st = s'.st → s.cts = s'.cts → s.st ≠ .err →
    exec i s = .next t → exec i s' = .next t' →
    (t.st = .err ↔ t'.st = .err) ∧ (t.st = .err → t.errc = t'.errc)

/-- 60_exceptions.md R157: a command that faults changes `ST` and `ERRC` and nothing else, the host sees both on the status
outputs, and no later command changes anything, so the frame gets no marked byte. -/
def Obligations.FaultEntryChangesOnlyStAndErrc : Prop :=
  ∀ (i : Instr) (s t : State), s.st ≠ .err → exec i s = .next t → t.st = .err →
    t = faulted s t.errc ∧ t.errc ≠ .noFault ∧ statusSt t = 2 ∧ statusErrc t = errBits t.errc ∧
      ∀ j u, exec j t = .next u → u = t

/-- 60_exceptions.md R152: in `IDLE`, `BAD_CTS` is exactly "not a power of two, or less than 2". -/
def Obligations.BadCtsExactlyForIllegalSizes : Prop :=
  ∀ (cts : Arg) (s : State), s.st = .idle →
    (exec (.start cts) s = .next (faulted s .badCts) ↔ ¬ ∃ n, 1 ≤ n ∧ cts.toNat = 2 ^ n)

/-- 60_exceptions.md R153: in `ACTIVE`, `BAD_INDEX` is exactly `k ≥ CTS`, on the full 9-bit operand. -/
def Obligations.BadIndexExactlyOutsideTheAlphabet : Prop :=
  ∀ (k : Arg) (s : State), s.st = .active →
    (exec (.sym k) s = .next (faulted s .badIndex) ↔ s.cts.toNat ≤ k.toNat)

/-- 60_exceptions.md R154: `START` in `ACTIVE`, and `SYM` and `END` in `IDLE`, whatever their operands. -/
def Obligations.ProtocolFaults : Prop :=
  ∀ s : State,
    (s.st = .active → ∀ cts, exec (.start cts) s = .next (faulted s .protocol)) ∧
    (s.st = .idle → ∀ k, exec (.sym k) s = .next (faulted s .protocol)) ∧
    (s.st = .idle → exec .endCmd s = .next (faulted s .protocol))

/-- 60_exceptions.md R155, constructor by constructor: outside `ERR` a reserved command takes `ILLEGAL_CMD`, which is its
whole effect. -/
def Obligations.ReservedCommandsTakeIllegalCmd : Prop :=
  ∀ (s : State) (a : Arg), s.st ≠ .err →
    exec (.illegalEndArgB0 a) s = .next (faulted s .illegalCmd) ∧
    exec (.illegalEndArgB1 a) s = .next (faulted s .illegalCmd) ∧
    exec (.illegalEndArgB2 a) s = .next (faulted s .illegalCmd) ∧
    exec (.illegalEndArgB3 a) s = .next (faulted s .illegalCmd) ∧
    exec (.illegalEndArgB4 a) s = .next (faulted s .illegalCmd) ∧
    exec (.illegalEndArgB5 a) s = .next (faulted s .illegalCmd) ∧
    exec (.illegalEndArgB6 a) s = .next (faulted s .illegalCmd) ∧
    exec (.illegalEndArgB7 a) s = .next (faulted s .illegalCmd) ∧
    exec (.illegalEndArgB8 a) s = .next (faulted s .illegalCmd) ∧
    exec (.illegalOp3 a) s = .next (faulted s .illegalCmd)

/-- 60_exceptions.md R158: in `ERR` every command is accepted and changes nothing. -/
def Obligations.ErrIgnoresEveryCommand : Prop :=
  ∀ (i : Instr) (s : State), s.st = .err → exec i s = .next s

/-- 60_exceptions.md R159: from `ERR` a step either is RESET, which leaves nothing of the frame, or changes nothing but the
events still to come; no second fault is taken. -/
def Obligations.OnlyResetLeavesErr : Prop :=
  ∀ s : State, s.st = .err →
    (∃ rest t, s.input = .reset :: rest ∧ step s = .next t ∧ t.st = .idle ∧ t.errc = .noFault ∧ t.cts = 0 ∧
      t.mcs = 0 ∧ t.cw = 0 ∧ t.next = 0 ∧ t.cur = 0 ∧ t.pv = false ∧ t.acc = 0 ∧ t.nb = 0) ∨
    ((∀ rest, s.input ≠ .reset :: rest) ∧ step s = .next { s with input := s.input.tail })

/-! ## START -/

/-- 00_scope.md R7: `MCS` of a legal size is the smallest integer from 2 up whose power of two is at least the size, which
is `max(2, log2(cts))`. -/
def Obligations.MinCodeSizeIsTheSmallest : Prop :=
  ∀ (n : Nat) (cts : Arg), 1 ≤ n → n ≤ 8 → cts.toNat = 2 ^ n →
    minCodeSize cts = max 2 n ∧ 2 ≤ minCodeSize cts ∧ cts.toNat ≤ 2 ^ minCodeSize cts ∧
      ∀ m, 2 ≤ m → cts.toNat ≤ 2 ^ m → minCodeSize cts ≤ m

/-- 40_frame_control.md R100: what `START` does in every state with every operand. In `IDLE` with a legal size it completes,
with the registers and the CLEAR code's bits as the rule gives them; `CUR` and `DICT` are not written. -/
def Obligations.StartBeginsAFrame : Prop :=
  ∀ (s : State) (cts : Arg),
    (s.st = .err → exec (.start cts) s = .next s) ∧
    (s.st = .active → exec (.start cts) s = .next (faulted s .protocol)) ∧
    (s.st = .idle → ¬ IsTableSize cts → exec (.start cts) s = .next (faulted s .badCts)) ∧
    (∀ n, s.st = .idle → 1 ≤ n → n ≤ 8 → cts.toNat = 2 ^ n →
      ∃ t, exec (.start cts) s = .next t ∧
        t.cts = cts ∧ t.mcs.toNat = max 2 n ∧ t.cw.toNat = max 2 n + 1 ∧ t.next.toNat = 2 ^ max 2 n + 2 ∧
        t.pv = false ∧ t.st = .active ∧ t.errc = s.errc ∧ t.cur = s.cur ∧ t.dict = s.dict ∧ t.input = s.input ∧
        (n ≤ 6 → t.out = s.out ∧ t.acc.toNat = 2 ^ max 2 n ∧ t.nb.toNat = max 2 n + 1) ∧
        (n = 7 → t.out = s.out ++ [⟨0x80, false⟩] ∧ t.acc = 0 ∧ t.nb = 0) ∧
        (n = 8 → t.out = s.out ++ [⟨0x00, false⟩] ∧ t.acc = 1 ∧ t.nb = 1))

/-- The frame of `START`: when it gives a next state, `CUR`, every word of `DICT` and the events to come are unchanged, what
was delivered stays, and either the command was ignored or faulted (all registers but `ST` and `ERRC` unchanged) or it
opened a frame (`ERRC` unchanged). -/
def Obligations.StartFrame : Prop :=
  ∀ (cts : Arg) (s t : State), exec (.start cts) s = .next t →
    t.cur = s.cur ∧ (∀ c, t.dict.read c = s.dict.read c) ∧ t.dict = s.dict ∧ t.input = s.input ∧
    (∃ bs, t.out = s.out ++ bs) ∧
    ((s.st = .idle ∧ IsTableSize cts ∧ t.st = .active ∧ t.errc = s.errc) ∨
      (s.st ≠ .err ∧ t = faulted s t.errc) ∨ (s.st = .err ∧ t = s))

/-! ## SYM -/

/-- 41_symbol.md R121, case (A): the first index of a frame becomes the current phrase; nothing else changes. -/
def Obligations.SymTakesTheFirstIndex : Prop :=
  ∀ (s : State) (k : Arg), s.st = .active → s.pv = false → k.toNat < s.cts.toNat →
    exec (.sym k) s = .next { s with cur := BitVec.ofNat 12 k.toNat, pv := true }

/-- 41_symbol.md R122, case (B): when a valid word holds (`CUR`, `k`), its address becomes the current code and nothing else
changes; the code is a phrase code and the phrase has grown by the one index `k`. -/
def Obligations.SymAdoptsAMatch : Prop :=
  ∀ (s : State) (k : Arg) (c : Nat), Inv s → s.st = .active → s.pv = true → k.toNat < s.cts.toNat →
    HoldsPairAt s s.cur k.toNat c →
    exec (.sym k) s = .next { s with cur := BitVec.ofNat 12 c } ∧ firstCode s.mcs ≤ c ∧
      phrase s c = phrase s s.cur.toNat ++ [k.toNat]

/-- 41_symbol.md R123, R124, R127 (and R125, R126), case (C): a miss emits the current code at the width before growth, stores the pair
at `NEXT`, grows the width when the new code is `2^CW`, and on the 4096th entry emits CLEAR, at width 12, and goes back to
the initial table and width; the phrase restarts as `[k]`. -/
def Obligations.SymAddsAnEntryOnAMiss : Prop :=
  ∀ (s : State) (k : Arg), WidthsHold s → s.dict.wf → s.cts.toNat ≤ 2 ^ s.mcs.toNat →
    s.st = .active → s.pv = true → k.toNat < s.cts.toNat → (∀ c, ¬ HoldsPairAt s s.cur k.toNat c) →
    ∃ t, exec (.sym k) s = .next t ∧
      t.cts = s.cts ∧ t.mcs = s.mcs ∧ t.st = .active ∧ t.errc = s.errc ∧ t.input = s.input ∧ t.pv = true ∧
      t.cur.toNat = k.toNat ∧ currentPhrase t = [k.toNat] ∧
      (∃ w, t.dict.read s.next.toNat = some w ∧ w.pfx = s.cur ∧ w.sym.toNat = k.toNat) ∧
      (∀ c, c ≠ s.next.toNat → t.dict.read c = s.dict.read c) ∧
      (s.next.toNat < 4095 → Emitted [(s.cur.toNat, s.cw.toNat)] s t ∧ t.next.toNat = s.next.toNat + 1 ∧
        t.cw.toNat = if s.next.toNat = 2 ^ s.cw.toNat then s.cw.toNat + 1 else s.cw.toNat) ∧
      (s.next.toNat = 4095 → s.cw.toNat = 12 ∧ s.next.toNat ≠ 2 ^ s.cw.toNat ∧
        Emitted [(s.cur.toNat, 12), (clrCode s.mcs, 12)] s t ∧
        t.next.toNat = firstCode s.mcs ∧ t.cw.toNat = s.mcs.toNat + 1)

/-- 41_symbol.md R125: in a frame, and whatever the command, the width changes only on a miss: there it rises by exactly one
when the code just given is `2^CW`, which are the codes 8, 16, ..., 2048, and only the clear, on the code 4095, sets it back to `MCS + 1`; it never exceeds 12.
`START` sets it to `MCS + 1` and tests nothing. -/
def Obligations.WidthGrowsOnlyOnAMiss : Prop :=
  (∀ (i : Instr) (s t : State), WidthsHold s → s.dict.wf → s.st = .active → exec i s = .next t →
    t.cw.toNat ≤ 12 ∧
    (t.cw ≠ s.cw → ∃ k, i = .sym k ∧ k.toNat < s.cts.toNat ∧ s.pv = true ∧ (∀ c, ¬ HoldsPairAt s s.cur k.toNat c) ∧
      ((s.next.toNat = 2 ^ s.cw.toNat ∧ t.cw.toNat = s.cw.toNat + 1) ∨
        (s.next.toNat = 4095 ∧ t.cw.toNat = s.mcs.toNat + 1))) ∧
    (∀ k, i = .sym k → k.toNat < s.cts.toNat → s.pv = true → (∀ c, ¬ HoldsPairAt s s.cur k.toNat c) →
      (s.next.toNat = 2 ^ s.cw.toNat ↔ s.next.toNat ∈ [8, 16, 32, 64, 128, 256, 512, 1024, 2048]) ∧
      (s.next.toNat = 2 ^ s.cw.toNat →
        Emitted [(s.cur.toNat, s.cw.toNat)] s t ∧ t.cw.toNat = s.cw.toNat + 1))) ∧
  (∀ (cts : Arg) (s t : State), s.st = .idle → exec (.start cts) s = .next t → t.st = .active →
    t.cw.toNat = t.mcs.toNat + 1)

/-- 41_symbol.md R126: the miss that gives the code 4095 emits the phrase's code and CLEAR, both at width 12, and goes back
to the initial table, which holds no pair, and the initial width; the growth test does not fire in it. Any earlier miss
leaves the table as it has grown. So between steps the code 4095 is neither matched nor the current code. -/
def Obligations.TheFullTableIsCleared : Prop :=
  (∀ (s : State) (k : Arg), WidthsHold s → s.dict.wf → s.cts.toNat ≤ 2 ^ s.mcs.toNat →
    s.st = .active → s.pv = true → k.toNat < s.cts.toNat → (∀ c, ¬ HoldsPairAt s s.cur k.toNat c) →
    ∃ t, exec (.sym k) s = .next t ∧
      (s.next.toNat < 4095 → t.next.toNat = s.next.toNat + 1) ∧
      (s.next.toNat = 4095 → s.cw.toNat = 12 ∧ s.next.toNat ≠ 2 ^ s.cw.toNat ∧
        Emitted [(s.cur.toNat, 12), (clrCode s.mcs, 12)] s t ∧ t.next.toNat = firstCode s.mcs ∧
        t.cw.toNat = s.mcs.toNat + 1 ∧ ∀ p j c, ¬ HoldsPairAt t p j c)) ∧
  (∀ s : State, Inv s → s.st = .active →
    (s.pv = true → s.cur.toNat < 4095) ∧ ∀ p j c, HoldsPairAt s p j c → c < 4095)

/-- The frame of `SYM`: when it gives a next state, `CTS`, `MCS` and the events to come are unchanged and what was delivered
stays; a form that stores nothing changes no word of `DICT`, and a miss changes no word but the one at `NEXT`; `ST` and
`ERRC` are unchanged unless the command faults, and then nothing else is changed. -/
def Obligations.SymFrame : Prop :=
  ∀ (k : Arg) (s t : State), exec (.sym k) s = .next t →
    t.cts = s.cts ∧ t.mcs = s.mcs ∧ t.input = s.input ∧ (∃ bs, t.out = s.out ++ bs) ∧
    ((t.st = s.st ∧ t.errc = s.errc) ∨ (s.st ≠ .err ∧ t = faulted s t.errc)) ∧
    (t.pv = s.pv ∨ (s.st = .active ∧ t.pv = true)) ∧
    ((s.st = .active ∧ k.toNat < s.cts.toNat ∧ s.pv = true ∧ dictLookup s.cur k.toNat s = none) →
      ∀ c, c ≠ s.next.toNat → t.dict.read c = s.dict.read c) ∧
    (¬ (s.st = .active ∧ k.toNat < s.cts.toNat ∧ s.pv = true ∧ dictLookup s.cur k.toNat s = none) →
      t.dict = s.dict ∧ t.out = s.out ∧ t.next = s.next ∧ t.cw = s.cw ∧ t.acc = s.acc ∧ t.nb = s.nb)

/-! ## END -/

/-- 40_frame_control.md R103: what `END` does in every state. In `ACTIVE` it completes: the code of the phrase that remains,
END-OF-INFORMATION at the same width, the flush with the final byte marked, `PV <- 0`, `ST <- IDLE`, and nothing else. -/
def Obligations.EndFinishesTheFrame : Prop :=
  ∀ s : State,
    (s.st = .err → exec .endCmd s = .next s) ∧
    (s.st = .idle → exec .endCmd s = .next (faulted s .protocol)) ∧
    (s.st = .active → WidthsHold s →
      exec .endCmd s = .next { s with
        pv := false
        st := .idle
        acc := 0
        nb := 0
        out := s.out ++ frameBytes
          (pending s :: (if s.pv then [(s.cur.toNat, s.cw.toNat)] else []) ++ [(eoiCode s.mcs, s.cw.toNat)]) })

/-- 40_frame_control.md R104: `END` directly after `START` gives the frame of the codes CLEAR and END-OF-INFORMATION, both
`MCS + 1` bits wide. -/
def Obligations.EmptyFrameIsClearThenEoi : Prop :=
  ∀ (s : State) (cts : Arg) (n : Nat), s.st = .idle → 1 ≤ n → n ≤ 8 → cts.toNat = 2 ^ n →
    ∃ t u, exec (.start cts) s = .next t ∧ exec .endCmd t = .next u ∧ u.st = .idle ∧
      u.out = s.out ++ frameBytes [(2 ^ max 2 n, max 2 n + 1), (2 ^ max 2 n + 1, max 2 n + 1)]

/-- The frame of `END`: when it gives a next state, `CTS`, `MCS`, `CW`, `NEXT`, `CUR`, every word of `DICT` and the events to
come are unchanged, what was delivered stays, and `ERRC` is unchanged unless the command faults, and then nothing else is
changed. -/
def Obligations.EndFrame : Prop :=
  ∀ s t : State, exec .endCmd s = .next t →
    t.cts = s.cts ∧ t.mcs = s.mcs ∧ t.cw = s.cw ∧ t.next = s.next ∧ t.cur = s.cur ∧
    (∀ c, t.dict.read c = s.dict.read c) ∧ t.dict = s.dict ∧ t.input = s.input ∧ (∃ bs, t.out = s.out ++ bs) ∧
    (t.errc = s.errc ∨ (s.st ≠ .err ∧ t = faulted s t.errc))

/-- 40_frame_control.md R105, 42_bit_packing.md R143: `END` in a frame delivers one to four bytes of which the final one, and
no other, is marked. -/
def Obligations.EndDeliversAMarkedByte : Prop :=
  ∀ s t : State, Inv s → s.st = .active → exec .endCmd s = .next t →
    ∃ bs b, t.out = s.out ++ bs ++ [⟨b, true⟩] ∧ (∀ x ∈ bs, x.last = false) ∧ bs.length ≤ 3

/-! ## Bit packing -/

/-- 42_bit_packing.md R140: `EMIT` appends the `w` bits of `code` above the pending ones, delivers every byte that becomes
complete, unmarked, keeps the rest pending, and changes nothing else. -/
def Obligations.EmitDeliversCompleteBytes : Prop :=
  ∀ (s : State) (code w : Nat), code < 2 ^ w → s.acc.toNat < 2 ^ s.nb.toNat →
    Emitted [(code, w)] s (emit code w s) ∧ (emit code w s).acc.toNat < 2 ^ (emit code w s).nb.toNat ∧
      emit code w s =
        { s with out := (emit code w s).out, acc := (emit code w s).acc, nb := (emit code w s).nb }

/-- 42_bit_packing.md R142: with bits pending, `FLUSH` delivers them in a marked byte, zeros above; with none, it marks the
last byte the step has delivered. -/
def Obligations.FlushMarksTheLastByte : Prop :=
  (∀ (s : State) (before : Nat), s.nb ≠ 0 →
    flush before s = { s with out := s.out ++ [⟨BitVec.ofNat 8 s.acc.toNat, true⟩], acc := 0, nb := 0 }) ∧
  (∀ (s : State) (old bs : List OutByte) (b : OutByte), s.nb = 0 → s.out = old ++ bs ++ [b] →
    flush old.length s = { s with out := old ++ bs ++ [⟨b.data, true⟩] })

/-- 42_bit_packing.md R145: any sequence of `EMIT`s delivers the bytes of the closed formula of 30_encoding.md R81, and leaves
the rest of its bits pending. -/
def Obligations.PackingClosedFormula : Prop :=
  ∀ (codes : List (Nat × Nat)) (s : State), (∀ p ∈ codes, p.1 < 2 ^ p.2) → s.acc.toNat < 2 ^ s.nb.toNat →
    Emitted codes s (codes.foldl (fun t p => emit p.1 p.2 t) s)

/-! ## The dictionary memory -/

/-- A read after a write gives the value written at its address and the old value elsewhere (20_memory.md R54). -/
def Obligations.DictReadAfterWrite : Prop :=
  ∀ (m : Memory) (c c' : Nat) (w : DictWord),
    (m.write c w).read c' = if c' = c then some w else m.read c'

/-- A write keeps the memory's canonical form, and equal memories are equal data. -/
def Obligations.DictFormIsCanonical : Prop :=
  (∀ (m : Memory) (c : Nat) (w : DictWord), m.wf → c < 4096 → (m.write c w).wf) ∧
  (∀ m m' : Memory, m.wf → m'.wf → (∀ c, m.read c = m'.read c) → m = m')

/-- 20_memory.md R53: `DictLookup` finds the code whose valid word holds the pair; at most one does, and where none does it
answers none. -/
def Obligations.LookupFindsTheOneCode : Prop :=
  ∀ (s : State) (p : Code) (k : Nat), Inv s →
    (∀ c, dictLookup p k s = some c ↔ HoldsPairAt s p k c) ∧
    (dictLookup p k s = none ↔ ∀ c, ¬ HoldsPairAt s p k c) ∧
    (∀ c d, HoldsPairAt s p k c → HoldsPairAt s p k d → c = d)

/-- 41_symbol.md R128: right after `START`, and right after a clear, no pair is found, so the next extension misses. -/
def Obligations.InitialTableHoldsNoPair : Prop :=
  ∀ (s : State) (p : Code) (k : Nat), s.next.toNat = firstCode s.mcs → dictLookup p k s = none

/-! ## The whole machine -/

/-- 40_frame_control.md R107: the transition table of `ST`, over every event that may be presented. -/
def Obligations.StTransitionTable : Prop :=
  ∀ (s t : State) (e : Event) (rest : List Event), s.input = e :: rest → step s = .next t →
    (e = .reset → t.st = .idle ∧ t.errc = .noFault) ∧
    (∀ w, e = .cmd w →
      (s.st = .err → t = { s with input := rest }) ∧
      (s.st ≠ .err → isReserved (decode w) = true → t.st = .err ∧ t.errc = .illegalCmd) ∧
      (∀ cts, decode w = .start cts →
        (s.st = .idle → IsTableSize cts → t.st = .active) ∧
        (s.st = .idle → ¬ IsTableSize cts → t.st = .err ∧ t.errc = .badCts) ∧
        (s.st = .active → t.st = .err ∧ t.errc = .protocol)) ∧
      (∀ k, decode w = .sym k →
        (s.st = .idle → t.st = .err ∧ t.errc = .protocol) ∧
        (s.st = .active → k.toNat < s.cts.toNat → t.st = .active) ∧
        (s.st = .active → s.cts.toNat ≤ k.toNat → t.st = .err ∧ t.errc = .badIndex)) ∧
      (decode w = .endCmd →
        (s.st = .idle → t.st = .err ∧ t.errc = .protocol) ∧ (s.st = .active → t.st = .idle)))

/-- 10_state.md R21, R22: `CTS` and `MCS` are written only by a `START` that opens a frame, and by RESET. -/
def Obligations.OnlyStartAndResetWriteTheConfiguration : Prop :=
  ∀ s t : State, step s = .next t → (t.cts ≠ s.cts ∨ t.mcs ≠ s.mcs) →
    (∃ rest, s.input = .reset :: rest) ∨
    (∃ w rest cts, s.input = .cmd w :: rest ∧ decode w = .start cts ∧ s.st = .idle ∧ IsTableSize cts)

/-- 20_memory.md R56: bytes are only appended; none is changed or withdrawn by any step, a fault and RESET included. -/
def Obligations.DeliveredBytesStay : Prop :=
  ∀ s t : State, step s = .next t → ∃ bs, t.out = s.out ++ bs

/-- 42_bit_packing.md R143: only `END` in a frame marks a byte. -/
def Obligations.OnlyEndMarksAByte : Prop :=
  ∀ (i : Instr) (s t : State), exec i s = .next t → (i ≠ .endCmd ∨ s.st ≠ .active) →
    ∃ bs, t.out = s.out ++ bs ∧ ∀ x ∈ bs, x.last = false

/-- 42_bit_packing.md R144: how many bytes each command delivers. -/
def Obligations.BytesPerStep : Prop :=
  ∀ (s t : State), Inv s →
    (∀ cts, exec (.start cts) s = .next t → t.out.length ≤ s.out.length + 1) ∧
    (∀ k, exec (.sym k) s = .next t → t.out.length ≤ s.out.length + 3) ∧
    (exec .endCmd s = .next t → s.st = .active →
      s.out.length + 1 ≤ t.out.length ∧ t.out.length ≤ s.out.length + 4)

/-! ## Invariants -/

/-- The invariant holds right after RESET, whatever is presented next (10_state.md R44). -/
def Obligations.ResetSatisfiesTheInvariant : Prop :=
  ∀ events : List Event, Inv { State.reset with input := events }

/-- 10_state.md R37 to R42 (and R30, and the memory's form): every step from a state of the invariant gives one. -/
def Obligations.StepKeepsTheInvariant : Prop :=
  ∀ s t : State, Inv s → step s = .next t → Inv t

/-- Every state a run reaches meets the invariant, and the machine does not stop there. -/
def Obligations.ReachableStatesNeverStop : Prop :=
  ∀ s : State, Reachable s → Inv s ∧ ∃ t, step s = .next t

/-- No command is refused, and the one stop is a miss whose store would go to a word that does not exist (10_state.md R31;
the stop is the model's, log entry 5). -/
def Obligations.StopsOnlyWithoutAWordToStore : Prop :=
  ∀ (i : Instr) (s : State), (∀ r, exec i s ≠ .refused r) ∧
    ((∃ r, exec i s = .fault r) ↔
      ∃ k, i = .sym k ∧ s.st = .active ∧ k.toNat < s.cts.toNat ∧ s.pv = true ∧
        dictLookup s.cur k.toNat s = none ∧ 4096 ≤ s.next.toNat)

/-- 10_state.md R38, R39, R43 and 30_encoding.md R80: in a frame every code `EMIT` can be given fits its width, the width is
3 to 12, and it is the number of bits of `NEXT - 1`. -/
def Obligations.EmittedCodesFitTheirWidth : Prop :=
  ∀ s : State, Inv s → s.st = .active →
    (s.pv = true → s.cur.toNat < 2 ^ s.cw.toNat ∧ s.cur.toNat ≠ clrCode s.mcs ∧ s.cur.toNat ≠ eoiCode s.mcs) ∧
    clrCode s.mcs < 2 ^ s.cw.toNat ∧ eoiCode s.mcs < 2 ^ s.cw.toNat ∧ 3 ≤ s.cw.toNat ∧ s.cw.toNat ≤ 12 ∧
    Nat.log2 (s.next.toNat - 1) + 1 = s.cw.toNat

/-! ## Phrases and whole frames -/

/-- 10_state.md R35, R36: the code table is a map: two codes of phrases stand for two phrases. -/
def Obligations.CodesStandForDistinctPhrases : Prop :=
  ∀ (s : State) (c d : Nat), Inv s → s.st = .active → IsPhraseCode s c → IsPhraseCode s d →
    phrase s c = phrase s d → c = d

/-- 10_state.md R35: the dictionary finds (`CUR`, `k`) exactly when the extended phrase is an entry of the code table. -/
def Obligations.LookupIsMembershipOfThePhrase : Prop :=
  ∀ (s : State) (k : Arg), Inv s → s.st = .active → s.pv = true → k.toNat < s.cts.toNat →
    (dictLookup s.cur k.toNat s ≠ none ↔
      ∃ c, IsPhraseCode s c ∧ phrase s c = currentPhrase s ++ [k.toNat])

/-- 41_symbol.md R133: for every legal table size and every list of indices in its alphabet, the commands `START`, `SYM`s,
`END` deliver exactly the bytes of the phrase-level encoder, whatever the block did before, and leave it in `IDLE`. -/
def Obligations.FrameDeliversTheEncodersBytes : Prop :=
  ∀ (s : State) (cts : Arg) (n : Nat) (ks : List Arg) (rest : List Event),
    Inv s → s.st = .idle → 1 ≤ n → n ≤ 8 → cts.toNat = 2 ^ n → (∀ k ∈ ks, k.toNat < cts.toNat) →
    s.input = encodeEvents cts ks ++ rest →
    ∃ t, Host.Core.run Sys2Proof.core (ks.length + 2) s = .next t ∧
      t.out = s.out ++ frameBytes (frameCodes (max 2 n) (ks.map fun k => k.toNat)) ∧
      t.st = .idle ∧ t.errc = s.errc ∧ t.acc = 0 ∧ t.nb = 0 ∧ t.mcs.toNat = max 2 n ∧ t.input = rest

/-- 40_frame_control.md R101 and 00_scope.md R2: the bytes of a frame depend on the table size and the indices only, not on
what the block did before. -/
def Obligations.FrameIsIndependentOfHistory : Prop :=
  ∀ (s s' : State) (cts : Arg) (ks : List Arg) (rest rest' : List Event),
    Inv s → Inv s' → s.st = .idle → s'.st = .idle → IsTableSize cts → (∀ k ∈ ks, k.toNat < cts.toNat) →
    s.input = encodeEvents cts ks ++ rest → s'.input = encodeEvents cts ks ++ rest' →
    ∃ t t' bs, Host.Core.run Sys2Proof.core (ks.length + 2) s = .next t ∧
      Host.Core.run Sys2Proof.core (ks.length + 2) s' = .next t' ∧
      t.out = s.out ++ bs ∧ t'.out = s'.out ++ bs ∧ t.mcs = t'.mcs

/-- 30_encoding.md R78 to R80, R82, R83: the bytes of a frame are those of the code sequence of the phrase-level encoder,
and that sequence, which the table size and the indices determine, begins with CLEAR at width `MCS + 1`, ends with its only
END-OF-INFORMATION and has the shape the rules give it, with the width of each code a function of its position. -/
def Obligations.FrameCodesHaveTheirShape : Prop :=
  ∀ (s : State) (cts : Arg) (n : Nat) (ks : List Arg) (rest : List Event),
    Inv s → s.st = .idle → 1 ≤ n → n ≤ 8 → cts.toNat = 2 ^ n → (∀ k ∈ ks, k.toNat < cts.toNat) →
    s.input = encodeEvents cts ks ++ rest →
    (∃ t, Host.Core.run Sys2Proof.core (ks.length + 2) s = .next t ∧
      t.out = s.out ++ frameBytes (frameCodes (max 2 n) (ks.map fun k => k.toNat))) ∧
    ∃ mid w, frameCodes (max 2 n) (ks.map fun k => k.toNat) = framed (max 2 n) mid w ∧
      FrameShape cts.toNat (max 2 n) (ks.map fun k => k.toNat) mid w
end

