-- ==== Sys2Proof/Laws/Memory.lean ====
section
/-! SUPPORT. What the dictionary operations do: reads after writes, the canonical form, the lookup. -/

namespace Sys2Proof.Machine

@[simp] theorem Memory.read_nil (c : Nat) : Memory.read c [] = none := rfl

/-- In a memory whose addresses are strictly rising, a read gives the listed word and nothing else. -/
theorem Memory.read_eq_some_iff {m : Memory} (h : m.Pairwise (fun a b => a.1 < b.1)) (c : Nat) (w : DictWord) :
    m.read c = some w ↔ (c, w) ∈ m := by
  induction m with
  | nil => simp
  | cons e rest ih =>
    obtain ⟨a, v⟩ := e
    rw [List.pairwise_cons] at h
    simp only [Memory.read, List.mem_cons, Prod.mk.injEq]
    split
    · next hac =>
      subst hac
      constructor
      · intro hv; exact .inl ⟨rfl, (Option.some.inj hv).symm⟩
      · rintro (⟨-, rfl⟩ | hmem)
        · rfl
        · exact absurd (h.1 _ hmem) (Nat.lt_irrefl _)
    · next hac =>
      rw [ih h.2]
      constructor
      · exact .inr
      · rintro (⟨rfl, -⟩ | hmem)
        · exact absurd rfl hac
        · exact hmem

/-- An address below every listed one has no value. -/
theorem Memory.read_eq_none_of_lt {m : Memory} {c : Nat} (h : ∀ e ∈ m, c < e.1) : m.read c = none := by
  induction m with
  | nil => rfl
  | cons e rest ih =>
    obtain ⟨a, v⟩ := e
    have ha : c < a := h (a, v) (by simp)
    simp only [Memory.read]
    rw [if_neg (by omega)]
    exact ih fun e he => h e (by simp [he])

/-- The entries of a memory after a write. -/
theorem Memory.mem_write {m : Memory} {c : Nat} {w : DictWord} {e : Nat × DictWord} (h : e ∈ m.write c w) :
    e = (c, w) ∨ e ∈ m := by
  induction m with
  | nil => simpa [Memory.write] using h
  | cons x rest ih =>
    obtain ⟨a, v⟩ := x
    simp only [Memory.write] at h
    split at h
    · simpa using h
    · split at h
      · rcases List.mem_cons.1 h with h | h
        · exact .inl h
        · exact .inr (List.mem_cons_of_mem _ h)
      · rcases List.mem_cons.1 h with h | h
        · exact .inr (h ▸ List.mem_cons_self ..)
        · rcases ih h with h | h
          · exact .inl h
          · exact .inr (List.mem_cons_of_mem _ h)

/-- A write keeps the addresses strictly rising. -/
theorem Memory.write_rising {m : Memory} (c : Nat) (w : DictWord) (h : m.Pairwise (fun a b => a.1 < b.1)) :
    (m.write c w).Pairwise (fun a b => a.1 < b.1) := by
  induction m with
  | nil => simp [Memory.write]
  | cons x rest ih =>
    obtain ⟨a, v⟩ := x
    have hx := List.pairwise_cons.1 h
    simp only [Memory.write]
    split
    · next hc =>
      refine List.pairwise_cons.2 ⟨fun e he => ?_, h⟩
      rcases List.mem_cons.1 he with rfl | he
      · exact hc
      · exact Nat.lt_trans hc (hx.1 e he)
    · split
      · next hc =>
        subst hc
        exact List.pairwise_cons.2 ⟨hx.1, hx.2⟩
      · next hlt hne =>
        refine List.pairwise_cons.2 ⟨fun e he => ?_, ih hx.2⟩
        rcases Memory.mem_write he with rfl | he
        · simp only; omega
        · exact hx.1 e he

/-- The word at `c` after a write at `c`. -/
theorem Memory.read_write_same (m : Memory) (c : Nat) (w : DictWord) : (m.write c w).read c = some w := by
  induction m with
  | nil => simp [Memory.write, Memory.read]
  | cons x rest ih =>
    obtain ⟨a, v⟩ := x
    simp only [Memory.write]
    split
    · simp [Memory.read]
    · split
      · simp [Memory.read]
      · next h => simp only [Memory.read]; rw [if_neg (by omega)]; exact ih

/-- Every other word after a write at `c`. -/
theorem Memory.read_write_other (m : Memory) {c d : Nat} (w : DictWord) (h : d ≠ c) :
    (m.write c w).read d = m.read d := by
  induction m with
  | nil => simp only [Memory.write, Memory.read]; rw [if_neg (by omega)]
  | cons x rest ih =>
    obtain ⟨a, v⟩ := x
    simp only [Memory.write]
    split
    · rw [Memory.read, if_neg (by omega)]
    · split
      · next hc => subst hc; simp only [Memory.read]; rw [if_neg (by omega), if_neg (by omega)]
      · simp only [Memory.read, ih]

/-- Every memory operation keeps the canonical form; the only one that changes a memory is the write. -/
theorem Memory.wf_write {m : Memory} (h : m.wf) {c : Nat} (hc : c < Config.dictWords) (w : DictWord) :
    (m.write c w).wf := by
  refine ⟨Memory.write_rising c w h.1, fun e he => ?_⟩
  rcases Memory.mem_write he with rfl | he
  · exact hc
  · exact h.2 e he

theorem Memory.wf_nil : Memory.wf [] :=
  ⟨List.Pairwise.nil, fun _ h => absurd h List.not_mem_nil⟩

/-- The test of one entry says what 20_memory.md R53 says of it. -/
theorem holdsPair_iff (first next : Nat) (p : Code) (k : Nat) (e : Nat × DictWord) :
    holdsPair first next p k e = true ↔ first ≤ e.1 ∧ e.1 < next ∧ e.2.pfx = p ∧ e.2.sym.toNat = k := by
  simp [holdsPair, and_assoc]

/-- What a lookup finds is a valid word that holds the pair. -/
theorem holdsPairAt_of_dictLookup {s : State} (h : s.dict.wf) {p : Code} {k c : Nat}
    (hc : dictLookup p k s = some c) : HoldsPairAt s p k c := by
  obtain ⟨e, he, rfl⟩ := Option.map_eq_some_iff.1 hc
  obtain ⟨h1, h2, h3, h4⟩ := (holdsPair_iff _ _ _ _ _).1 (List.find?_some he)
  exact ⟨h1, h2, e.2, (Memory.read_eq_some_iff h.1 _ _).2 (List.mem_of_find?_eq_some he), h3, h4⟩

/-- Where a lookup finds nothing, no valid word holds the pair. -/
theorem not_holdsPairAt_of_dictLookup_none {s : State} (h : s.dict.wf) {p : Code} {k : Nat}
    (hn : dictLookup p k s = none) (c : Nat) : ¬ HoldsPairAt s p k c := by
  rintro ⟨h1, h2, w, hw, h3, h4⟩
  have hf := List.find?_eq_none.1 (Option.map_eq_none_iff.1 hn) (c, w)
    ((Memory.read_eq_some_iff h.1 _ _).1 hw)
  exact hf ((holdsPair_iff _ _ _ _ _).2 ⟨h1, h2, h3, h4⟩)

end Sys2Proof.Machine
end

