-- ==== Sys2Proof/Laws/State.lean ====
section
/-! SUPPORT. One lemma per field per update of the state, so that no later proof unfolds an update. -/

namespace Sys2Proof.Machine

/-! `setPv` -/

@[simp] theorem setPv_cts (s : State) : (setPv s).cts = s.cts := rfl
@[simp] theorem setPv_mcs (s : State) : (setPv s).mcs = s.mcs := rfl
@[simp] theorem setPv_cw (s : State) : (setPv s).cw = s.cw := rfl
@[simp] theorem setPv_next (s : State) : (setPv s).next = s.next := rfl
@[simp] theorem setPv_cur (s : State) : (setPv s).cur = s.cur := rfl
@[simp] theorem setPv_pv (s : State) : (setPv s).pv = true := rfl
@[simp] theorem setPv_acc (s : State) : (setPv s).acc = s.acc := rfl
@[simp] theorem setPv_nb (s : State) : (setPv s).nb = s.nb := rfl
@[simp] theorem setPv_st (s : State) : (setPv s).st = s.st := rfl
@[simp] theorem setPv_errc (s : State) : (setPv s).errc = s.errc := rfl
@[simp] theorem setPv_dict (s : State) : (setPv s).dict = s.dict := rfl
@[simp] theorem setPv_out (s : State) : (setPv s).out = s.out := rfl
@[simp] theorem setPv_input (s : State) : (setPv s).input = s.input := rfl

/-! `clearPv` -/

@[simp] theorem clearPv_cts (s : State) : (clearPv s).cts = s.cts := rfl
@[simp] theorem clearPv_mcs (s : State) : (clearPv s).mcs = s.mcs := rfl
@[simp] theorem clearPv_cw (s : State) : (clearPv s).cw = s.cw := rfl
@[simp] theorem clearPv_next (s : State) : (clearPv s).next = s.next := rfl
@[simp] theorem clearPv_cur (s : State) : (clearPv s).cur = s.cur := rfl
@[simp] theorem clearPv_pv (s : State) : (clearPv s).pv = false := rfl
@[simp] theorem clearPv_acc (s : State) : (clearPv s).acc = s.acc := rfl
@[simp] theorem clearPv_nb (s : State) : (clearPv s).nb = s.nb := rfl
@[simp] theorem clearPv_st (s : State) : (clearPv s).st = s.st := rfl
@[simp] theorem clearPv_errc (s : State) : (clearPv s).errc = s.errc := rfl
@[simp] theorem clearPv_dict (s : State) : (clearPv s).dict = s.dict := rfl
@[simp] theorem clearPv_out (s : State) : (clearPv s).out = s.out := rfl
@[simp] theorem clearPv_input (s : State) : (clearPv s).input = s.input := rfl

/-! `raiseFault` -/

@[simp] theorem raiseFault_cts (c : ErrCode) (s : State) : (raiseFault c s).cts = s.cts := rfl
@[simp] theorem raiseFault_mcs (c : ErrCode) (s : State) : (raiseFault c s).mcs = s.mcs := rfl
@[simp] theorem raiseFault_cw (c : ErrCode) (s : State) : (raiseFault c s).cw = s.cw := rfl
@[simp] theorem raiseFault_next (c : ErrCode) (s : State) : (raiseFault c s).next = s.next := rfl
@[simp] theorem raiseFault_cur (c : ErrCode) (s : State) : (raiseFault c s).cur = s.cur := rfl
@[simp] theorem raiseFault_pv (c : ErrCode) (s : State) : (raiseFault c s).pv = s.pv := rfl
@[simp] theorem raiseFault_acc (c : ErrCode) (s : State) : (raiseFault c s).acc = s.acc := rfl
@[simp] theorem raiseFault_nb (c : ErrCode) (s : State) : (raiseFault c s).nb = s.nb := rfl
@[simp] theorem raiseFault_st (c : ErrCode) (s : State) : (raiseFault c s).st = .err := rfl
@[simp] theorem raiseFault_errc (c : ErrCode) (s : State) : (raiseFault c s).errc = c := rfl
@[simp] theorem raiseFault_dict (c : ErrCode) (s : State) : (raiseFault c s).dict = s.dict := rfl
@[simp] theorem raiseFault_out (c : ErrCode) (s : State) : (raiseFault c s).out = s.out := rfl
@[simp] theorem raiseFault_input (c : ErrCode) (s : State) : (raiseFault c s).input = s.input := rfl

/-! `resetBlock` -/

@[simp] theorem resetBlock_cts (s : State) : (resetBlock s).cts = 0 := rfl
@[simp] theorem resetBlock_mcs (s : State) : (resetBlock s).mcs = 0 := rfl
@[simp] theorem resetBlock_cw (s : State) : (resetBlock s).cw = 0 := rfl
@[simp] theorem resetBlock_next (s : State) : (resetBlock s).next = 0 := rfl
@[simp] theorem resetBlock_cur (s : State) : (resetBlock s).cur = 0 := rfl
@[simp] theorem resetBlock_pv (s : State) : (resetBlock s).pv = false := rfl
@[simp] theorem resetBlock_acc (s : State) : (resetBlock s).acc = 0 := rfl
@[simp] theorem resetBlock_nb (s : State) : (resetBlock s).nb = 0 := rfl
@[simp] theorem resetBlock_st (s : State) : (resetBlock s).st = .idle := rfl
@[simp] theorem resetBlock_errc (s : State) : (resetBlock s).errc = .noFault := rfl
@[simp] theorem resetBlock_dict (s : State) : (resetBlock s).dict = [] := rfl
@[simp] theorem resetBlock_out (s : State) : (resetBlock s).out = s.out := rfl
@[simp] theorem resetBlock_input (s : State) : (resetBlock s).input = s.input := rfl

/-! `presentFirst` -/

@[simp] theorem presentFirst_cts (e : Event) (s : State) : (presentFirst e s).cts = s.cts := rfl
@[simp] theorem presentFirst_mcs (e : Event) (s : State) : (presentFirst e s).mcs = s.mcs := rfl
@[simp] theorem presentFirst_cw (e : Event) (s : State) : (presentFirst e s).cw = s.cw := rfl
@[simp] theorem presentFirst_next (e : Event) (s : State) : (presentFirst e s).next = s.next := rfl
@[simp] theorem presentFirst_cur (e : Event) (s : State) : (presentFirst e s).cur = s.cur := rfl
@[simp] theorem presentFirst_pv (e : Event) (s : State) : (presentFirst e s).pv = s.pv := rfl
@[simp] theorem presentFirst_acc (e : Event) (s : State) : (presentFirst e s).acc = s.acc := rfl
@[simp] theorem presentFirst_nb (e : Event) (s : State) : (presentFirst e s).nb = s.nb := rfl
@[simp] theorem presentFirst_st (e : Event) (s : State) : (presentFirst e s).st = s.st := rfl
@[simp] theorem presentFirst_errc (e : Event) (s : State) : (presentFirst e s).errc = s.errc := rfl
@[simp] theorem presentFirst_dict (e : Event) (s : State) : (presentFirst e s).dict = s.dict := rfl
@[simp] theorem presentFirst_out (e : Event) (s : State) : (presentFirst e s).out = s.out := rfl
@[simp] theorem presentFirst_input (e : Event) (s : State) : (presentFirst e s).input = e :: s.input := rfl

/-! `openFrame` -/

@[simp] theorem openFrame_cts (k : Arg) (s : State) : (openFrame k s).cts = k := rfl
@[simp] theorem openFrame_mcs (k : Arg) (s : State) : (openFrame k s).mcs = BitVec.ofNat 4 (minCodeSize k) := rfl
@[simp] theorem openFrame_cw (k : Arg) (s : State) : (openFrame k s).cw = BitVec.ofNat 4 (minCodeSize k + 1) := rfl
@[simp] theorem openFrame_next (k : Arg) (s : State) : (openFrame k s).next = BitVec.ofNat 13 (2 ^ minCodeSize k + 2) := rfl
@[simp] theorem openFrame_cur (k : Arg) (s : State) : (openFrame k s).cur = s.cur := rfl
@[simp] theorem openFrame_pv (k : Arg) (s : State) : (openFrame k s).pv = false := rfl
@[simp] theorem openFrame_acc (k : Arg) (s : State) : (openFrame k s).acc = 0 := rfl
@[simp] theorem openFrame_nb (k : Arg) (s : State) : (openFrame k s).nb = 0 := rfl
@[simp] theorem openFrame_st (k : Arg) (s : State) : (openFrame k s).st = .active := rfl
@[simp] theorem openFrame_errc (k : Arg) (s : State) : (openFrame k s).errc = s.errc := rfl
@[simp] theorem openFrame_dict (k : Arg) (s : State) : (openFrame k s).dict = s.dict := rfl
@[simp] theorem openFrame_out (k : Arg) (s : State) : (openFrame k s).out = s.out := rfl
@[simp] theorem openFrame_input (k : Arg) (s : State) : (openFrame k s).input = s.input := rfl

/-! `firstIndex` -/

@[simp] theorem firstIndex_cts (k : Arg) (s : State) : (firstIndex k s).cts = s.cts := rfl
@[simp] theorem firstIndex_mcs (k : Arg) (s : State) : (firstIndex k s).mcs = s.mcs := rfl
@[simp] theorem firstIndex_cw (k : Arg) (s : State) : (firstIndex k s).cw = s.cw := rfl
@[simp] theorem firstIndex_next (k : Arg) (s : State) : (firstIndex k s).next = s.next := rfl
@[simp] theorem firstIndex_cur (k : Arg) (s : State) : (firstIndex k s).cur = literalCode k := rfl
@[simp] theorem firstIndex_pv (k : Arg) (s : State) : (firstIndex k s).pv = true := rfl
@[simp] theorem firstIndex_acc (k : Arg) (s : State) : (firstIndex k s).acc = s.acc := rfl
@[simp] theorem firstIndex_nb (k : Arg) (s : State) : (firstIndex k s).nb = s.nb := rfl
@[simp] theorem firstIndex_st (k : Arg) (s : State) : (firstIndex k s).st = s.st := rfl
@[simp] theorem firstIndex_errc (k : Arg) (s : State) : (firstIndex k s).errc = s.errc := rfl
@[simp] theorem firstIndex_dict (k : Arg) (s : State) : (firstIndex k s).dict = s.dict := rfl
@[simp] theorem firstIndex_out (k : Arg) (s : State) : (firstIndex k s).out = s.out := rfl
@[simp] theorem firstIndex_input (k : Arg) (s : State) : (firstIndex k s).input = s.input := rfl

/-! `adoptMatch` -/

@[simp] theorem adoptMatch_cts (c : Nat) (s : State) : (adoptMatch c s).cts = s.cts := rfl
@[simp] theorem adoptMatch_mcs (c : Nat) (s : State) : (adoptMatch c s).mcs = s.mcs := rfl
@[simp] theorem adoptMatch_cw (c : Nat) (s : State) : (adoptMatch c s).cw = s.cw := rfl
@[simp] theorem adoptMatch_next (c : Nat) (s : State) : (adoptMatch c s).next = s.next := rfl
@[simp] theorem adoptMatch_cur (c : Nat) (s : State) : (adoptMatch c s).cur = BitVec.ofNat 12 c := rfl
@[simp] theorem adoptMatch_pv (c : Nat) (s : State) : (adoptMatch c s).pv = s.pv := rfl
@[simp] theorem adoptMatch_acc (c : Nat) (s : State) : (adoptMatch c s).acc = s.acc := rfl
@[simp] theorem adoptMatch_nb (c : Nat) (s : State) : (adoptMatch c s).nb = s.nb := rfl
@[simp] theorem adoptMatch_st (c : Nat) (s : State) : (adoptMatch c s).st = s.st := rfl
@[simp] theorem adoptMatch_errc (c : Nat) (s : State) : (adoptMatch c s).errc = s.errc := rfl
@[simp] theorem adoptMatch_dict (c : Nat) (s : State) : (adoptMatch c s).dict = s.dict := rfl
@[simp] theorem adoptMatch_out (c : Nat) (s : State) : (adoptMatch c s).out = s.out := rfl
@[simp] theorem adoptMatch_input (c : Nat) (s : State) : (adoptMatch c s).input = s.input := rfl

/-! `addEntry` -/

@[simp] theorem addEntry_cts (k : Arg) (s : State) : (addEntry k s).cts = s.cts := rfl
@[simp] theorem addEntry_mcs (k : Arg) (s : State) : (addEntry k s).mcs = s.mcs := rfl
@[simp] theorem addEntry_cw (k : Arg) (s : State) : (addEntry k s).cw = s.cw := rfl
@[simp] theorem addEntry_next (k : Arg) (s : State) : (addEntry k s).next = BitVec.ofNat 13 (s.next.toNat + 1) := rfl
@[simp] theorem addEntry_cur (k : Arg) (s : State) : (addEntry k s).cur = s.cur := rfl
@[simp] theorem addEntry_pv (k : Arg) (s : State) : (addEntry k s).pv = s.pv := rfl
@[simp] theorem addEntry_acc (k : Arg) (s : State) : (addEntry k s).acc = s.acc := rfl
@[simp] theorem addEntry_nb (k : Arg) (s : State) : (addEntry k s).nb = s.nb := rfl
@[simp] theorem addEntry_st (k : Arg) (s : State) : (addEntry k s).st = s.st := rfl
@[simp] theorem addEntry_errc (k : Arg) (s : State) : (addEntry k s).errc = s.errc := rfl
@[simp] theorem addEntry_dict (k : Arg) (s : State) : (addEntry k s).dict = s.dict.write s.next.toNat ⟨s.cur, symField k⟩ := rfl
@[simp] theorem addEntry_out (k : Arg) (s : State) : (addEntry k s).out = s.out := rfl
@[simp] theorem addEntry_input (k : Arg) (s : State) : (addEntry k s).input = s.input := rfl

/-! `clearTable` -/

@[simp] theorem clearTable_cts (s : State) : (clearTable s).cts = s.cts := rfl
@[simp] theorem clearTable_mcs (s : State) : (clearTable s).mcs = s.mcs := rfl
@[simp] theorem clearTable_cw (s : State) : (clearTable s).cw = BitVec.ofNat 4 (s.mcs.toNat + 1) := rfl
@[simp] theorem clearTable_next (s : State) : (clearTable s).next = BitVec.ofNat 13 (firstCode s.mcs) := rfl
@[simp] theorem clearTable_cur (s : State) : (clearTable s).cur = s.cur := rfl
@[simp] theorem clearTable_pv (s : State) : (clearTable s).pv = s.pv := rfl
@[simp] theorem clearTable_acc (s : State) : (clearTable s).acc = s.acc := rfl
@[simp] theorem clearTable_nb (s : State) : (clearTable s).nb = s.nb := rfl
@[simp] theorem clearTable_st (s : State) : (clearTable s).st = s.st := rfl
@[simp] theorem clearTable_errc (s : State) : (clearTable s).errc = s.errc := rfl
@[simp] theorem clearTable_dict (s : State) : (clearTable s).dict = s.dict := rfl
@[simp] theorem clearTable_out (s : State) : (clearTable s).out = s.out := rfl
@[simp] theorem clearTable_input (s : State) : (clearTable s).input = s.input := rfl

/-! `emit` -/

@[simp] theorem emit_cts (code w : Nat) (s : State) : (emit code w s).cts = s.cts := rfl
@[simp] theorem emit_mcs (code w : Nat) (s : State) : (emit code w s).mcs = s.mcs := rfl
@[simp] theorem emit_cw (code w : Nat) (s : State) : (emit code w s).cw = s.cw := rfl
@[simp] theorem emit_next (code w : Nat) (s : State) : (emit code w s).next = s.next := rfl
@[simp] theorem emit_cur (code w : Nat) (s : State) : (emit code w s).cur = s.cur := rfl
@[simp] theorem emit_pv (code w : Nat) (s : State) : (emit code w s).pv = s.pv := rfl
@[simp] theorem emit_st (code w : Nat) (s : State) : (emit code w s).st = s.st := rfl
@[simp] theorem emit_errc (code w : Nat) (s : State) : (emit code w s).errc = s.errc := rfl
@[simp] theorem emit_dict (code w : Nat) (s : State) : (emit code w s).dict = s.dict := rfl
@[simp] theorem emit_input (code w : Nat) (s : State) : (emit code w s).input = s.input := rfl

/-! `growWidth` -/

@[simp] theorem growWidth_cts (n : Nat) (s : State) : (growWidth n s).cts = s.cts := by
  unfold growWidth; split <;> rfl
@[simp] theorem growWidth_mcs (n : Nat) (s : State) : (growWidth n s).mcs = s.mcs := by
  unfold growWidth; split <;> rfl
@[simp] theorem growWidth_next (n : Nat) (s : State) : (growWidth n s).next = s.next := by
  unfold growWidth; split <;> rfl
@[simp] theorem growWidth_cur (n : Nat) (s : State) : (growWidth n s).cur = s.cur := by
  unfold growWidth; split <;> rfl
@[simp] theorem growWidth_pv (n : Nat) (s : State) : (growWidth n s).pv = s.pv := by
  unfold growWidth; split <;> rfl
@[simp] theorem growWidth_acc (n : Nat) (s : State) : (growWidth n s).acc = s.acc := by
  unfold growWidth; split <;> rfl
@[simp] theorem growWidth_nb (n : Nat) (s : State) : (growWidth n s).nb = s.nb := by
  unfold growWidth; split <;> rfl
@[simp] theorem growWidth_st (n : Nat) (s : State) : (growWidth n s).st = s.st := by
  unfold growWidth; split <;> rfl
@[simp] theorem growWidth_errc (n : Nat) (s : State) : (growWidth n s).errc = s.errc := by
  unfold growWidth; split <;> rfl
@[simp] theorem growWidth_dict (n : Nat) (s : State) : (growWidth n s).dict = s.dict := by
  unfold growWidth; split <;> rfl
@[simp] theorem growWidth_out (n : Nat) (s : State) : (growWidth n s).out = s.out := by
  unfold growWidth; split <;> rfl
@[simp] theorem growWidth_input (n : Nat) (s : State) : (growWidth n s).input = s.input := by
  unfold growWidth; split <;> rfl

/-! `clearIfFull` -/

@[simp] theorem clearIfFull_cts (s : State) : (clearIfFull s).cts = s.cts := by
  unfold clearIfFull; split <;> rfl
@[simp] theorem clearIfFull_mcs (s : State) : (clearIfFull s).mcs = s.mcs := by
  unfold clearIfFull; split <;> rfl
@[simp] theorem clearIfFull_cur (s : State) : (clearIfFull s).cur = s.cur := by
  unfold clearIfFull; split <;> rfl
@[simp] theorem clearIfFull_pv (s : State) : (clearIfFull s).pv = s.pv := by
  unfold clearIfFull; split <;> rfl
@[simp] theorem clearIfFull_st (s : State) : (clearIfFull s).st = s.st := by
  unfold clearIfFull; split <;> rfl
@[simp] theorem clearIfFull_errc (s : State) : (clearIfFull s).errc = s.errc := by
  unfold clearIfFull; split <;> rfl
@[simp] theorem clearIfFull_dict (s : State) : (clearIfFull s).dict = s.dict := by
  unfold clearIfFull; split <;> rfl
@[simp] theorem clearIfFull_input (s : State) : (clearIfFull s).input = s.input := by
  unfold clearIfFull; split <;> rfl

/-! `emitRemaining` -/

@[simp] theorem emitRemaining_cts (s : State) : (emitRemaining s).cts = s.cts := by
  unfold emitRemaining; split <;> rfl
@[simp] theorem emitRemaining_mcs (s : State) : (emitRemaining s).mcs = s.mcs := by
  unfold emitRemaining; split <;> rfl
@[simp] theorem emitRemaining_cw (s : State) : (emitRemaining s).cw = s.cw := by
  unfold emitRemaining; split <;> rfl
@[simp] theorem emitRemaining_next (s : State) : (emitRemaining s).next = s.next := by
  unfold emitRemaining; split <;> rfl
@[simp] theorem emitRemaining_cur (s : State) : (emitRemaining s).cur = s.cur := by
  unfold emitRemaining; split <;> rfl
@[simp] theorem emitRemaining_pv (s : State) : (emitRemaining s).pv = s.pv := by
  unfold emitRemaining; split <;> rfl
@[simp] theorem emitRemaining_st (s : State) : (emitRemaining s).st = s.st := by
  unfold emitRemaining; split <;> rfl
@[simp] theorem emitRemaining_errc (s : State) : (emitRemaining s).errc = s.errc := by
  unfold emitRemaining; split <;> rfl
@[simp] theorem emitRemaining_dict (s : State) : (emitRemaining s).dict = s.dict := by
  unfold emitRemaining; split <;> rfl
@[simp] theorem emitRemaining_input (s : State) : (emitRemaining s).input = s.input := by
  unfold emitRemaining; split <;> rfl

/-! `flush` -/

@[simp] theorem flush_cts (before : Nat) (s : State) : (flush before s).cts = s.cts := by
  unfold flush; split <;> rfl
@[simp] theorem flush_mcs (before : Nat) (s : State) : (flush before s).mcs = s.mcs := by
  unfold flush; split <;> rfl
@[simp] theorem flush_cw (before : Nat) (s : State) : (flush before s).cw = s.cw := by
  unfold flush; split <;> rfl
@[simp] theorem flush_next (before : Nat) (s : State) : (flush before s).next = s.next := by
  unfold flush; split <;> rfl
@[simp] theorem flush_cur (before : Nat) (s : State) : (flush before s).cur = s.cur := by
  unfold flush; split <;> rfl
@[simp] theorem flush_pv (before : Nat) (s : State) : (flush before s).pv = s.pv := by
  unfold flush; split <;> rfl
@[simp] theorem flush_st (before : Nat) (s : State) : (flush before s).st = s.st := by
  unfold flush; split <;> rfl
@[simp] theorem flush_errc (before : Nat) (s : State) : (flush before s).errc = s.errc := by
  unfold flush; split <;> rfl
@[simp] theorem flush_dict (before : Nat) (s : State) : (flush before s).dict = s.dict := by
  unfold flush; split <;> rfl
@[simp] theorem flush_input (before : Nat) (s : State) : (flush before s).input = s.input := by
  unfold flush; split <;> rfl

end Sys2Proof.Machine
end

