-- ==== Sys2Proof/Laws/Packer.lean ====
section
/-! SUPPORT. What `EMIT` and `FLUSH` do, in the terms of the closed packing formula. -/

namespace Sys2Proof.Reference

open Sys2Proof.Machine

/-! The stream of a list of codes. -/

theorem streamValue_append (l l' : List (Nat × Nat)) :
    streamValue (l ++ l') = streamValue l + 2 ^ streamBits l * streamValue l' := by
  induction l with
  | nil => simp [streamValue, streamBits]
  | cons p rest ih =>
    obtain ⟨c, w⟩ := p
    simp only [List.cons_append, streamValue, streamBits, ih, pow_add]
    ring

theorem streamBits_append (l l' : List (Nat × Nat)) :
    streamBits (l ++ l') = streamBits l + streamBits l' := by
  induction l with
  | nil => simp [streamBits]
  | cons p rest ih =>
    obtain ⟨c, w⟩ := p
    simp only [List.cons_append, streamBits, ih]
    ring

/-- Codes that fit their widths make a value that fits the total width. -/
theorem streamValue_lt {l : List (Nat × Nat)} (h : ∀ p ∈ l, p.1 < 2 ^ p.2) :
    streamValue l < 2 ^ streamBits l := by
  induction l with
  | nil => simp [streamValue, streamBits]
  | cons p rest ih =>
    obtain ⟨c, w⟩ := p
    have hc : c < 2 ^ w := h (c, w) (by simp)
    have hr := ih fun q hq => h q (by simp [hq])
    have hmul : 2 ^ w * (streamValue rest + 1) ≤ 2 ^ w * 2 ^ streamBits rest := Nat.mul_le_mul_left _ hr
    simp only [streamValue, streamBits, pow_add]
    rw [Nat.mul_add] at hmul
    omega

@[simp] theorem plainBytes_length (v n : Nat) : (plainBytes v n).length = n := by simp [plainBytes]

theorem plainBytes_last {v n : Nat} {x : OutByte} (h : x ∈ plainBytes v n) : x.last = false := by
  simp only [plainBytes, List.mem_map] at h
  obtain ⟨j, -, rfl⟩ := h
  rfl

/-- The bytes of a stream, cut after the first `n`. -/
theorem plainBytes_add (v n k : Nat) :
    plainBytes v (n + k) = plainBytes v n ++ plainBytes (v / 2 ^ (8 * n)) k := by
  simp only [plainBytes, List.range_add, List.map_append, List.map_map]
  congr 1
  refine List.map_congr_left fun j _ => ?_
  simp only [Function.comp, streamByte, Nat.div_div_eq_div_mul, ← pow_add, Nat.mul_add]

/-- The whole bytes of a stream do not depend on the bits that come after it. -/
theorem plainBytes_prefix (v b x : Nat) {n : Nat} (h : 8 * n ≤ b) :
    plainBytes (v + 2 ^ b * x) n = plainBytes v n := by
  refine List.map_congr_left fun j hj => ?_
  have hj : j < n := List.mem_range.1 hj
  have hb : b = 8 * j + (8 + (b - 8 * j - 8)) := by omega
  have hdiv : (v + 2 ^ b * x) / 2 ^ (8 * j) = v / 2 ^ (8 * j) + 256 * (2 ^ (b - 8 * j - 8) * x) := by
    conv_lhs => rw [hb, pow_add, Nat.mul_assoc, Nat.add_mul_div_left _ _ (Nat.two_pow_pos _), pow_add, Nat.mul_assoc]
    rfl
  have hbyte : streamByte (v + 2 ^ b * x) j = streamByte v j := by
    apply BitVec.eq_of_toNat_eq
    simp only [streamByte, BitVec.toNat_ofNat, hdiv]
    omega
  rw [hbyte]

/-- The loop of `EMIT` delivers the stream's bytes. -/
theorem outBytes_eq_plainBytes (count t : Nat) : outBytes count t = plainBytes t count := by
  induction count generalizing t with
  | zero => rfl
  | succ n ih =>
    have h1 : plainBytes t 1 = [⟨BitVec.ofNat 8 t, false⟩] := by simp [plainBytes, streamByte]
    rw [outBytes, ih, Nat.shiftRight_eq_div_pow, Nat.add_comm n 1, plainBytes_add, h1]
    rfl

/-! `Emitted`. -/

/-- The bits pending after an emission, and that they fit. -/
theorem Emitted.pending_eq {codes : List (Nat × Nat)} {s t : State} (h : Emitted codes s t) :
    pending t = (streamValue (pending s :: codes) / 2 ^ (8 * (streamBits (pending s :: codes) / 8)),
      streamBits (pending s :: codes) % 8) := by
  simp [pending, h.acc, h.nb]

theorem Emitted.accWithin {codes : List (Nat × Nat)} {s t : State} (h : Emitted codes s t)
    (hs : s.acc.toNat < 2 ^ s.nb.toNat) (hc : ∀ p ∈ codes, p.1 < 2 ^ p.2) : t.acc.toNat < 2 ^ t.nb.toNat := by
  have hlt : streamValue (pending s :: codes) < 2 ^ streamBits (pending s :: codes) := by
    refine streamValue_lt fun p hp => ?_
    rcases List.mem_cons.1 hp with rfl | hp
    · exact hs
    · exact hc p hp
  rw [h.acc, h.nb, Nat.div_lt_iff_lt_mul (Nat.two_pow_pos _), ← pow_add]
  rwa [show ∀ b : Nat, b % 8 + 8 * (b / 8) = b from fun b => by omega]

/-- Emitting nothing. -/
theorem Emitted.refl (s : State) : Emitted [] s s := by
  have hnb := s.nb.isLt
  have h0 : s.nb.toNat / 8 = 0 := by omega
  exact ⟨by simp [streamBits, pending, h0, plainBytes], by simp [streamBits, streamValue, pending, h0],
    by simp only [streamBits, pending]; omega⟩

/-- Emissions one after the other (42_bit_packing.md R141). -/
theorem Emitted.trans {l l' : List (Nat × Nat)} {s t u : State} (h : Emitted l s t) (h' : Emitted l' t u) :
    Emitted (l ++ l') s u := by
  have hval : streamValue (pending s :: (l ++ l')) =
      streamValue (pending s :: l) + 2 ^ streamBits (pending s :: l) * streamValue l' := by
    rw [← List.cons_append, streamValue_append]
  have hbits : streamBits (pending s :: (l ++ l')) = streamBits (pending s :: l) + streamBits l' := by
    rw [← List.cons_append, streamBits_append]
  generalize hV : streamValue (pending s :: l) = V at *
  generalize hB : streamBits (pending s :: l) = B at *
  have hval' : streamValue (pending t :: l') = V / 2 ^ (8 * (B / 8)) + 2 ^ (B % 8) * streamValue l' := by
    rw [h.pending_eq, hV, hB]; rfl
  have hbits' : streamBits (pending t :: l') = B % 8 + streamBits l' := by
    rw [h.pending_eq, hB]; rfl
  have hcut : (V + 2 ^ B * streamValue l') / 2 ^ (8 * (B / 8)) =
      V / 2 ^ (8 * (B / 8)) + 2 ^ (B % 8) * streamValue l' := by
    have hb : 2 ^ B = 2 ^ (8 * (B / 8)) * 2 ^ (B % 8) := by
      rw [← pow_add]; congr 1; omega
    rw [hb, Nat.mul_assoc, Nat.add_mul_div_left _ _ (Nat.two_pow_pos _)]
  have hq : (B + streamBits l') / 8 = B / 8 + (B % 8 + streamBits l') / 8 := by omega
  refine ⟨?_, ?_, ?_⟩
  · rw [h'.out, h.out, hval, hbits, hV, hB, hval', hbits', hq, plainBytes_add, hcut,
      plainBytes_prefix V B _ (by omega), List.append_assoc]
  · rw [h'.acc, hval, hbits, hval', hbits', hq, Nat.mul_add, pow_add, ← Nat.div_div_eq_div_mul, hcut]
  · rw [h'.nb, hbits, hbits']; omega

/-- `EMIT` (42_bit_packing.md R140): it appends the code's bits to the stream. -/
theorem emitted_emit {s : State} {code w : Nat} (hc : code < 2 ^ w) (hs : s.acc.toNat < 2 ^ s.nb.toNat) :
    Emitted [(code, w)] s (emit code w s) := by
  have ht : s.acc.toNat ||| (code <<< s.nb.toNat) = streamValue [pending s, (code, w)] := by
    rw [Nat.or_comm, Nat.shiftLeft_eq, Nat.mul_comm, ← Nat.two_pow_add_eq_or_of_lt hs]
    simp [streamValue, pending, Nat.add_comm]
  have hn : s.nb.toNat + w = streamBits [pending s, (code, w)] := by simp [streamBits, pending]
  have hlt : streamValue [pending s, (code, w)] < 2 ^ streamBits [pending s, (code, w)] := by
    refine streamValue_lt fun p hp => ?_
    simp only [List.mem_cons, List.not_mem_nil, or_false] at hp
    rcases hp with rfl | rfl
    · exact hs
    · exact hc
  refine ⟨?_, ?_, ?_⟩
  · simp only [emit, ht, hn, outBytes_eq_plainBytes]
  · simp only [emit, ht, hn, BitVec.toNat_ofNat, Nat.shiftRight_eq_div_pow]
    refine Nat.mod_eq_of_lt ?_
    rw [Nat.div_lt_iff_lt_mul (Nat.two_pow_pos _), ← pow_add]
    exact Nat.lt_of_lt_of_le hlt (Nat.pow_le_pow_right (by omega) (by omega))
  · simp only [emit, ht, hn, BitVec.toNat_ofNat]
    omega

/-! `FLUSH`. -/

@[simp] theorem markLast_append_singleton (l : List OutByte) (b : OutByte) :
    markLast (l ++ [b]) = l ++ [{ b with last := true }] := by
  induction l with
  | nil => rfl
  | cons x rest ih =>
    cases rest with
    | nil => rfl
    | cons y rest => exact congrArg (x :: ·) ih

theorem frameBytes_eq (codes : List (Nat × Nat)) {n : Nat} (h : (streamBits codes + 7) / 8 = n + 1) :
    frameBytes codes = plainBytes (streamValue codes) n ++ [⟨streamByte (streamValue codes) n, true⟩] := by
  simp only [frameBytes, h, List.range_succ, List.map_append, List.map_cons, List.map_nil, plainBytes]
  congr 1
  · refine List.map_congr_left fun j hj => ?_
    have hj : j < n := List.mem_range.1 hj
    have : (j + 1 == n + 1) = false := by simp; omega
    rw [this]
  · simp

/-- `FLUSH` ends the stream of the codes emitted in the step whose `OUT` began as `old` (42_bit_packing.md R142,
30_encoding.md R81): either bits are pending or the step has delivered a byte. -/
theorem flush_emitted {codes : List (Nat × Nat)} {s t : State} (h : Emitted codes s t)
    (hs : s.acc.toNat < 2 ^ s.nb.toNat) (hc : ∀ p ∈ codes, p.1 < 2 ^ p.2)
    (hb : 0 < streamBits codes) :
    flush s.out.length t =
      { t with out := s.out ++ frameBytes (pending s :: codes), acc := 0, nb := 0 } := by
  have hlt : streamValue (pending s :: codes) < 2 ^ streamBits (pending s :: codes) := by
    refine streamValue_lt fun p hp => ?_
    rcases List.mem_cons.1 hp with rfl | hp
    · exact hs
    · exact hc p hp
  have hnb := s.nb.isLt
  have hpos : 0 < streamBits (pending s :: codes) := by simp only [streamBits, pending]; omega
  obtain ⟨hout, haccv, hnbv⟩ := h
  obtain ⟨V, hV⟩ : ∃ V, streamValue (pending s :: codes) = V := ⟨_, rfl⟩
  obtain ⟨B, hB⟩ : ∃ B, streamBits (pending s :: codes) = B := ⟨_, rfl⟩
  rw [hV, hB] at hout haccv hlt
  rw [hB] at hnbv hpos
  unfold flush
  split
  · next hpend =>
    have hn : (streamBits (pending s :: codes) + 7) / 8 = B / 8 + 1 := by rw [hB]; omega
    have hbyte : BitVec.zeroExtend 8 t.acc = streamByte V (B / 8) := by
      apply BitVec.eq_of_toNat_eq
      simp only [BitVec.truncate_eq_setWidth, BitVec.toNat_setWidth, streamByte, BitVec.toNat_ofNat, haccv]
    rw [frameBytes_eq _ hn, hV, hbyte, hout, List.append_assoc]
  · next hpend =>
    obtain ⟨n, hn8⟩ : ∃ n, B = 8 * (n + 1) := ⟨B / 8 - 1, by omega⟩
    have hn : (streamBits (pending s :: codes) + 7) / 8 = n + 1 := by rw [hB]; omega
    have hq : B / 8 = n + 1 := by omega
    have hacc : t.acc = 0 := by
      apply BitVec.eq_of_toNat_eq
      rw [haccv, hq, ← hn8]
      exact Nat.div_eq_of_lt hlt
    have hnb0 : t.nb = 0 := by
      apply BitVec.eq_of_toNat_eq
      simp only [BitVec.ofNat_eq_ofNat, BitVec.toNat_ofNat]
      omega
    have hsplit : plainBytes V (n + 1) = plainBytes V n ++ [⟨streamByte V n, false⟩] := by
      simp [plainBytes, List.range_succ]
    rw [frameBytes_eq _ hn, hV, hout, hq, List.take_left, List.drop_left, hsplit, markLast_append_singleton,
      ← hacc, ← hnb0]

/-- A frame finished from `t`, after codes were emitted from `s`, is the frame finished from `s` with those codes first. -/
theorem frameBytes_after_emitted {l tail : List (Nat × Nat)} {s t : State} (h : Emitted l s t) (hpos : 0 < streamBits tail) :
   t.out ++ frameBytes (pending t :: tail) = s.out ++ frameBytes (pending s :: l ++ tail) := by
  obtain ⟨V, hV⟩ : ∃ V, streamValue (pending s :: l) = V := ⟨_, rfl⟩
  obtain ⟨B, hB⟩ : ∃ B, streamBits (pending s :: l) = B := ⟨_, rfl⟩
  have hval' : streamValue (pending t :: tail) = V / 2 ^ (8 * (B / 8)) + 2 ^ (B % 8) * streamValue tail := by
    rw [h.pending_eq, hV, hB]; rfl
  have hbits' : streamBits (pending t :: tail) = B % 8 + streamBits tail := by
    rw [h.pending_eq, hB]; rfl
  have hval : streamValue (pending s :: l ++ tail) = V + 2 ^ B * streamValue tail := by rw [streamValue_append, hV, hB]
  have hbits : streamBits (pending s :: l ++ tail) = B + streamBits tail := by rw [streamBits_append, hB]
  have hcut : (V + 2 ^ B * streamValue tail) / 2 ^ (8 * (B / 8)) =
      V / 2 ^ (8 * (B / 8)) + 2 ^ (B % 8) * streamValue tail := by
    have hb : 2 ^ B = 2 ^ (8 * (B / 8)) * 2 ^ (B % 8) := by
      rw [← pow_add]; congr 1; omega
    rw [hb, Nat.mul_assoc, Nat.add_mul_div_left _ _ (Nat.two_pow_pos _)]
  obtain ⟨n, hn⟩ : ∃ n, (streamBits (pending t :: tail) + 7) / 8 = n + 1 := ⟨(streamBits (pending t :: tail) + 7) / 8 - 1, by rw [hbits']; omega⟩
  have hn2 : (streamBits (pending s :: l ++ tail) + 7) / 8 = (B / 8 + n) + 1 := by rw [hbits]; rw [hbits'] at hn; omega
  rw [frameBytes_eq _ hn, frameBytes_eq _ hn2, h.out, hV, hB, hval, hval', plainBytes_add, hcut, plainBytes_prefix V B _ (by omega)]
  have : streamByte (V + 2 ^ B * streamValue tail) (B / 8 + n) = streamByte (V / 2 ^ (8 * (B / 8)) + 2 ^ (B % 8) * streamValue tail) n := by
    simp only [streamByte]; rw [← hcut, Nat.div_div_eq_div_mul, ← pow_add]; congr 3; omega
  rw [this]; simp

end Sys2Proof.Reference
end

