-- ==== Sys2Proof/Laws/Exec.lean ====
section
/-! SUPPORT. Everything a command and a step can do, once: one inversion lemma per meaning, cited instead of unfolding it. -/

namespace Sys2Proof.Machine

/-- The legal operands of `START` are the powers of two from 2 to 256. -/
theorem ctsIsLegal_iff (cts : Arg) : ctsIsLegal cts = true ↔ IsTableSize cts := by
  simp only [ctsIsLegal, legalCts, List.contains_iff_mem, List.mem_cons, List.not_mem_nil, or_false, IsTableSize]
  constructor
  · rintro (h | h | h | h | h | h | h | h)
    exacts [⟨1, by omega, by omega, h⟩, ⟨2, by omega, by omega, h⟩, ⟨3, by omega, by omega, h⟩,
      ⟨4, by omega, by omega, h⟩, ⟨5, by omega, by omega, h⟩, ⟨6, by omega, by omega, h⟩,
      ⟨7, by omega, by omega, h⟩, ⟨8, by omega, by omega, h⟩]
  · rintro ⟨n, h1, h8, h⟩
    interval_cases n <;> omega

theorem indexIsLegal_iff (k : Arg) (cts : BitVec 9) : indexIsLegal k cts = true ↔ k.toNat < cts.toNat := by
  simp [indexIsLegal]

/-- What `START` can do. -/
theorem execStart_cases {cts : Arg} {s t : State} (h : execStart cts s = .next t) :
    (s.st = .err ∧ t = s) ∨ (s.st = .active ∧ t = raiseFault .protocol s) ∨
    (s.st = .idle ∧ IsTableSize cts ∧ t = beginFrame cts s) ∨
    (s.st = .idle ∧ ¬ IsTableSize cts ∧ t = raiseFault .badCts s) := by
  unfold execStart at h
  split at h
  · next hst => exact .inl ⟨hst, by injection h with h; exact h.symm⟩
  · next hst => exact .inr (.inl ⟨hst, by injection h with h; exact h.symm⟩)
  · next hst =>
    split at h
    · next hl => exact .inr (.inr (.inl ⟨hst, (ctsIsLegal_iff _).1 hl, by injection h with h; exact h.symm⟩))
    · next hl => exact .inr (.inr (.inr ⟨hst, fun hc => hl ((ctsIsLegal_iff _).2 hc), by injection h with h; exact h.symm⟩))

/-- What `END` can do. -/
theorem execEnd_cases {s t : State} (h : execEnd s = .next t) :
    (s.st = .err ∧ t = s) ∨ (s.st = .idle ∧ t = raiseFault .protocol s) ∨ (s.st = .active ∧ t = finishFrame s) := by
  unfold execEnd at h
  split at h
  · next hst => exact .inl ⟨hst, by injection h with h; exact h.symm⟩
  · next hst => exact .inr (.inl ⟨hst, by injection h with h; exact h.symm⟩)
  · next hst => exact .inr (.inr ⟨hst, by injection h with h; exact h.symm⟩)

/-- What `SYM` can do. -/
theorem execSym_cases {k : Arg} {s t : State} (h : execSym k s = .next t) :
    (s.st = .err ∧ t = s) ∨ (s.st = .idle ∧ t = raiseFault .protocol s) ∨
    (s.st = .active ∧ ¬ k.toNat < s.cts.toNat ∧ t = raiseFault .badIndex s) ∨
    (s.st = .active ∧ k.toNat < s.cts.toNat ∧ s.pv = false ∧ t = firstIndex k s) ∨
    (s.st = .active ∧ k.toNat < s.cts.toNat ∧ s.pv = true ∧ ∃ c, dictLookup s.cur k.toNat s = some c ∧ t = adoptMatch c s) ∨
    (s.st = .active ∧ k.toNat < s.cts.toNat ∧ s.pv = true ∧ dictLookup s.cur k.toNat s = none ∧
      s.next.toNat < 4096 ∧ t = missIndex k s) := by
  unfold execSym at h
  split at h
  · next hst => exact .inl ⟨hst, by injection h with h; exact h.symm⟩
  · next hst => exact .inr (.inl ⟨hst, by injection h with h; exact h.symm⟩)
  · next hst =>
    split at h
    · next hk =>
      have hk := (indexIsLegal_iff _ _).1 hk
      unfold acceptIndex at h
      split at h
      · next hpv =>
        split at h
        · next c hc => exact .inr (.inr (.inr (.inr (.inl ⟨hst, hk, hpv, c, hc, by injection h with h; exact h.symm⟩))))
        · next hn =>
          unfold execMiss at h
          split at h
          · next hlt =>
            exact .inr (.inr (.inr (.inr (.inr ⟨hst, hk, hpv, hn, hlt, by injection h with h; exact h.symm⟩))))
          · cases h
      · next hpv =>
        exact .inr (.inr (.inr (.inl ⟨hst, hk, by simpa using hpv, by injection h with h; exact h.symm⟩)))
    · next hk =>
      exact .inr (.inr (.inl ⟨hst, fun hc => hk ((indexIsLegal_iff _ _).2 hc), by injection h with h; exact h.symm⟩))

/-- What a reserved command does. -/
theorem exec_reserved {i : Instr} (h : isReserved i = true) (s : State) : exec i s = .next (takeIllegal s) := by
  cases i <;> first | rfl | cases h

/-- What a command can do, by its kind. -/
theorem exec_cases {i : Instr} {s t : State} (h : exec i s = .next t) :
    (∃ cts, i = .start cts ∧ execStart cts s = .next t) ∨ (∃ k, i = .sym k ∧ execSym k s = .next t) ∨
    (i = .endCmd ∧ execEnd s = .next t) ∨ (isReserved i = true ∧ t = takeIllegal s) := by
  cases i with
  | start cts => exact .inl ⟨cts, rfl, h⟩
  | sym k => exact .inr (.inl ⟨k, rfl, h⟩)
  | endCmd => exact .inr (.inr (.inl ⟨rfl, h⟩))
  | _ => exact .inr (.inr (.inr ⟨rfl, by rw [exec_reserved rfl] at h; injection h with h; exact h.symm⟩))

theorem takeIllegal_err {s : State} (h : s.st = .err) : takeIllegal s = s := by
  simp [takeIllegal, h]

theorem takeIllegal_of_ne {s : State} (h : s.st ≠ .err) : takeIllegal s = raiseFault .illegalCmd s := by
  unfold takeIllegal
  split
  · next he => exact absurd he h
  · rfl
  · rfl

/-- What a step can do, by the event presented. -/
theorem step_cases {s t : State} (h : step s = .next t) :
    (s.input = [] ∧ t = s) ∨
    (∃ rest, s.input = .reset :: rest ∧ t = { State.reset with out := s.out, input := rest }) ∨
    (∃ w rest, s.input = .cmd w :: rest ∧ exec (decode w) { s with input := rest } = .next t) := by
  unfold step takeEvent at h
  cases hin : s.input with
  | nil => rw [hin] at h; exact .inl ⟨rfl, by injection h with h; exact h.symm⟩
  | cons e rest =>
    rw [hin] at h
    cases e with
    | reset => exact .inr (.inl ⟨rest, rfl, by injection h with h; exact h.symm⟩)
    | cmd w => exact .inr (.inr ⟨w, rest, rfl, h⟩)

theorem step_cmd {s : State} {w : CmdWord} {rest : List Event} (h : s.input = .cmd w :: rest) :
    step s = exec (decode w) { s with input := rest } := by
  simp [step, takeEvent, h]

theorem step_reset {s : State} {rest : List Event} (h : s.input = .reset :: rest) :
    step s = .next { State.reset with out := s.out, input := rest } := by
  simp [step, takeEvent, h, resetBlock]

/-! The miss of `SYM`, field by field. -/

/-- A miss that does not fill the table leaves the table and the width as the entry and the growth test made them. -/
theorem missIndex_of_not_full {k : Arg} {s : State} (h : s.next.toNat < 4095) :
    missIndex k s =
      { growWidth s.next.toNat (addEntry k (emit s.cur.toNat s.cw.toNat s)) with cur := literalCode k } := by
  have hfull : tableIsFull (BitVec.ofNat 13 (s.next.toNat + 1)) = false := by
    simp only [tableIsFull, Config.maxEntries, BitVec.toNat_ofNat, beq_eq_false_iff_ne]
    omega
  simp [missIndex, clearIfFull, hfull]

/-- A miss that fills the table emits CLEAR and goes back to the initial table. -/
theorem missIndex_of_full {k : Arg} {s : State} (h : s.next.toNat = 4095) :
    missIndex k s =
      let s3 := growWidth 4095 (addEntry k (emit s.cur.toNat s.cw.toNat s))
      { clearTable (emit (clrCode s.mcs) s3.cw.toNat s3) with cur := literalCode k } := by
  have hfull : tableIsFull (BitVec.ofNat 13 (4095 + 1)) = true := by decide
  simp [missIndex, clearIfFull, h, hfull]

/-- The width after the growth test: one more exactly when the new code is `2^CW` (41_symbol.md R125). -/
theorem growWidth_cw_toNat {n : Nat} {s : State} (h : s.cw.toNat ≤ 12) :
    (growWidth n s).cw.toNat = if n = 2 ^ s.cw.toNat then s.cw.toNat + 1 else s.cw.toNat := by
  unfold growWidth growthDue
  by_cases hn : n = 2 ^ s.cw.toNat
  · simp only [hn, beq_self_eq_true, if_true, BitVec.toNat_ofNat]
    omega
  · simp [hn]

/-! The widths of an open frame. -/

/-- The invariants of a configured block give what a step needs of the widths. -/
theorem Configured.widthsHold {s : State} (h : Configured s) (hacc : s.acc.toNat < 2 ^ s.nb.toNat) : WidthsHold s := by
  obtain ⟨n, h1, h8, hcts⟩ := h.ctsLegal
  have hm := h.mcsOfCts
  rw [hcts, Nat.log2_two_pow] at hm
  have hpow : 2 ^ n ≤ 2 ^ s.mcs.toNat := Nat.pow_le_pow_right (by omega) (by omega)
  have hcw : 2 ^ s.mcs.toNat ≤ 2 ^ s.cw.toNat := Nat.pow_le_pow_right (by omega) (by have := h.cwLow; omega)
  refine ⟨by omega, by omega, h.cwLow, h.cwHigh, h.nextHigh, h.nextAboveHalf, h.nextWithin, fun hpv => ?_, hacc⟩
  have := h.nextWithin
  rcases h.curIsEntry hpv with hc | ⟨-, hc⟩ <;> omega

end Sys2Proof.Machine
end

