-- ==== Sys2Proof/Laws/Invariant.lean ====
section
/-! SUPPORT. The invariant's parts as later proofs use them, and a miss of `SYM` field by field. -/

namespace Sys2Proof.Machine

open Sys2Proof.Reference

/-- The powers of two of a configured block. -/
theorem Configured.pows {s : State} (h : Configured s) : ∃ n, 1 ≤ n ∧ n ≤ 8 ∧ s.cts.toNat = 2 ^ n ∧ s.mcs.toNat = max 2 n ∧ 2 ^ n ≤ 2 ^ s.mcs.toNat ∧ 4 ≤ 2 ^ s.mcs.toNat ∧ 2 ^ s.mcs.toNat ≤ 256 ∧ 2 * 2 ^ s.mcs.toNat ≤ 2 ^ s.cw.toNat := by
  obtain ⟨n, h1, h8, hc⟩ := h.ctsLegal
  have hm := h.mcsOfCts
  rw [hc, Nat.log2_two_pow] at hm
  refine ⟨n, h1, h8, hc, hm, Nat.pow_le_pow_right (by omega) (by omega), ?_, ?_, ?_⟩
  · exact Nat.pow_le_pow_right (n := 2) (i := 2) (by omega) (by omega)
  · exact Nat.pow_le_pow_right (n := 2) (j := 8) (by omega) (by omega)
  · rw [← pow_succ']; exact Nat.pow_le_pow_right (by omega) h.cwLow

/-- A step that leaves the table and the configuration alone, and keeps the current code an entry, keeps `Configured`. -/
theorem Configured.congr {s t : State} (h : Configured s) (e1 : t.cts = s.cts) (e2 : t.mcs = s.mcs) (e3 : t.cw = s.cw) (e4 : t.next = s.next) (e5 : t.dict = s.dict)
  (e6 : t.pv = true → t.cur.toNat < s.cts.toNat ∨ (firstCode s.mcs ≤ t.cur.toNat ∧ t.cur.toNat < s.next.toNat)) : Configured t := by
  refine ⟨?_,?_,?_,?_,?_,?_,?_,?_,?_,?_,?_⟩ 
  all_goals first | rw [e1, e2, e4] | rw [e1, e2] | skip
  all_goals (try simp only [e1, e2, e3, e4, e5])
  exacts [h.ctsLegal, h.mcsOfCts, h.cwLow, h.cwHigh, h.nextLow, h.nextHigh, h.nextAboveHalf, h.nextWithin, e6, h.wordsValid, h.pairsDistinct]

/-- The alphabet is within the literal codes. -/
theorem Configured.ctsWithin {s : State} (h : Configured s) : s.cts.toNat ≤ 2 ^ s.mcs.toNat := by
  obtain ⟨n, -, -, hc, -, hle, -⟩ := h.pows
  rwa [hc]

/-- What a proof of the invariant needs of a state whose registers are those of `s`: only the events to come differ. -/
theorem Inv.withInput {s : State} (h : Inv s) (events : List Event) : Inv { s with input := events } := by
  refine ⟨h.dictWf, h.accWithin, h.errcExactlyInErr, ?_, fun ha => ?_, h.idleEmpty⟩
  · rcases h.begunOrNot with hu | hc
    · exact .inl ⟨hu.cts, hu.mcs, hu.cw, hu.next, hu.cur, hu.pv, hu.acc, hu.nb, hu.dict⟩
    · exact .inr (hc.congr rfl rfl rfl rfl rfl hc.curIsEntry)
  · exact (h.activeConfigured ha).congr rfl rfl rfl rfl rfl (h.activeConfigured ha).curIsEntry

theorem symField_toNat {k : Arg} (h : k.toNat < 256) : (symField k).toNat = k.toNat := by
  simp [symField]; omega

theorem literalCode_toNat (k : Arg) : (literalCode k).toNat = k.toNat := by
  simp [literalCode]; omega

/-- What a miss does, field by field (41_symbol.md R123 to R127). -/
theorem missIndex_fields {s : State} (k : Arg) (hw : WidthsHold s) (hpv : s.pv = true) :
   let t := missIndex k s
   t.cts = s.cts ∧ t.mcs = s.mcs ∧ t.st = s.st ∧ t.errc = s.errc ∧ t.input = s.input ∧ t.pv = true ∧
      t.cur.toNat = k.toNat ∧
      t.dict = s.dict.write s.next.toNat ⟨s.cur, symField k⟩ ∧
      (s.next.toNat < 4095 → Emitted [(s.cur.toNat, s.cw.toNat)] s t ∧ t.next.toNat = s.next.toNat + 1 ∧
        t.cw.toNat = if s.next.toNat = 2 ^ s.cw.toNat then s.cw.toNat + 1 else s.cw.toNat) ∧
      (s.next.toNat = 4095 → s.cw.toNat = 12 ∧ s.next.toNat ≠ 2 ^ s.cw.toNat ∧
        Emitted [(s.cur.toNat, 12), (clrCode s.mcs, 12)] s t ∧
        t.next.toNat = firstCode s.mcs ∧ t.cw.toNat = s.mcs.toNat + 1) := by
  refine ⟨by simp [missIndex], by simp [missIndex], by simp [missIndex], by simp [missIndex], by simp [missIndex], by simp [missIndex, hpv], by simp [missIndex, literalCode_toNat], by simp [missIndex], fun hn => ?_, fun hn => ?_⟩
  · have he := emitted_emit (hw.curFits hpv) hw.accWithin
    rw [missIndex_of_not_full hn]
    refine ⟨⟨?_, ?_, ?_⟩, ?_, ?_⟩
    · exact (by simpa using he.out)
    · exact (by simpa using he.acc)
    · exact (by simpa using he.nb)
    · simp; omega
    · show (growWidth _ (addEntry k (emit s.cur.toNat s.cw.toNat s))).cw.toNat = _
      rw [growWidth_cw_toNat (by simpa using hw.cwHigh)]; split_ifs <;> simp_all
  · have h12 : s.cw.toNat = 12 := by
      have h1 := hw.nextWithin
      have h2 := hw.cwHigh
      by_contra hc
      have := Nat.pow_le_pow_right (n := 2) (by omega) (show s.cw.toNat ≤ 11 by omega)
      omega
    have he := emitted_emit (hw.curFits hpv) hw.accWithin
    rw [missIndex_of_full hn]
    have hg : growWidth 4095 (addEntry k (emit s.cur.toNat s.cw.toNat s)) = addEntry k (emit s.cur.toNat s.cw.toNat s) := by
      simp [growWidth, growthDue, h12]
    have hm8 := hw.mcsHigh
    have hclr : clrCode s.mcs < 2 ^ 12 := by
      simp only [clrCode]; exact Nat.pow_lt_pow_right (by omega) (by omega)
    rw [h12] at he
    have he' : Emitted [(s.cur.toNat, 12)] s (addEntry k (emit s.cur.toNat 12 s)) := ⟨he.out, he.acc, he.nb⟩
    have hcf := hw.curFits hpv
    rw [h12] at hcf
    have he2 := emitted_emit (s := addEntry k (emit s.cur.toNat 12 s)) hclr (he'.accWithin hw.accWithin (by simpa using hcf))
    have he3 := he'.trans he2
    rw [hg]
    refine ⟨h12, by rw [hn, h12]; decide, ⟨?_, ?_, ?_⟩, ?_, ?_⟩
    · simpa [h12] using he3.out
    · simpa [h12] using he3.acc
    · simpa [h12] using he3.nb
    · simp only [clearTable_next, emit_mcs, addEntry_mcs, firstCode, BitVec.toNat_ofNat]
      have := Nat.pow_le_pow_right (n := 2) (j := 8) (by omega) hm8
      exact Nat.mod_eq_of_lt (by omega)
    · simp; omega

end Sys2Proof.Machine
end

