-- ==== Sys2Proof/Laws/PerInstr.lean ====
section
/-! SUPPORT. Laws of every command as a term: the word of a well-formed command is a word of its own row of the opcode
table. -/

namespace Sys2Proof.Laws

/-- The family: the encoder's word of `i` matches the mask and pattern of the row of `i`. -/
def RowMatch.Statement (i : Instr) : Prop := i.wf = true → i.row.matchesWord (encode i) = true

/-- `RowMatch.Statement` for a constructor with an operand, from its truth at all 512 operands. -/
theorem RowMatch.of_forall {f : Arg → Instr} (h : ∀ a : Fin 512, (f (BitVec.ofFin a)).wf = true →
    (f (BitVec.ofFin a)).row.matchesWord (encode (f (BitVec.ofFin a))) = true) (a : Arg) : RowMatch.Statement (f a) :=
  h a.toFin

theorem RowMatch.start (a : Arg) : RowMatch.Statement (.start a) :=
  RowMatch.of_forall (f := .start) (by decide +kernel) a

theorem RowMatch.sym (a : Arg) : RowMatch.Statement (.sym a) :=
  RowMatch.of_forall (f := .sym) (by decide +kernel) a

theorem RowMatch.endCmd : RowMatch.Statement .endCmd := fun _ => by decide

theorem RowMatch.illegalEndArgB0 (a : Arg) : RowMatch.Statement (.illegalEndArgB0 a) :=
  RowMatch.of_forall (f := .illegalEndArgB0) (by decide +kernel) a

theorem RowMatch.illegalEndArgB1 (a : Arg) : RowMatch.Statement (.illegalEndArgB1 a) :=
  RowMatch.of_forall (f := .illegalEndArgB1) (by decide +kernel) a

theorem RowMatch.illegalEndArgB2 (a : Arg) : RowMatch.Statement (.illegalEndArgB2 a) :=
  RowMatch.of_forall (f := .illegalEndArgB2) (by decide +kernel) a

theorem RowMatch.illegalEndArgB3 (a : Arg) : RowMatch.Statement (.illegalEndArgB3 a) :=
  RowMatch.of_forall (f := .illegalEndArgB3) (by decide +kernel) a

theorem RowMatch.illegalEndArgB4 (a : Arg) : RowMatch.Statement (.illegalEndArgB4 a) :=
  RowMatch.of_forall (f := .illegalEndArgB4) (by decide +kernel) a

theorem RowMatch.illegalEndArgB5 (a : Arg) : RowMatch.Statement (.illegalEndArgB5 a) :=
  RowMatch.of_forall (f := .illegalEndArgB5) (by decide +kernel) a

theorem RowMatch.illegalEndArgB6 (a : Arg) : RowMatch.Statement (.illegalEndArgB6 a) :=
  RowMatch.of_forall (f := .illegalEndArgB6) (by decide +kernel) a

theorem RowMatch.illegalEndArgB7 (a : Arg) : RowMatch.Statement (.illegalEndArgB7 a) :=
  RowMatch.of_forall (f := .illegalEndArgB7) (by decide +kernel) a

theorem RowMatch.illegalEndArgB8 (a : Arg) : RowMatch.Statement (.illegalEndArgB8 a) :=
  RowMatch.of_forall (f := .illegalEndArgB8) (by decide +kernel) a

theorem RowMatch.illegalOp3 (a : Arg) : RowMatch.Statement (.illegalOp3 a) :=
  RowMatch.of_forall (f := .illegalOp3) (by decide +kernel) a

end Sys2Proof.Laws
end

