-- ==== Sys2Proof/Laws/Phrase.lean ====
section
/-! SUPPORT. The phrase a code stands for (10_state.md R36), one code at a time. -/

namespace Sys2Proof.Reference

open Sys2Proof.Machine

/-- A literal code stands for its index. -/
theorem phrase_literal {s : State} {c : Nat} (h : c < 2 ^ s.mcs.toNat) : phrase s c = [c] := by
  simp [phrase, phraseWithin, h]

/-- Any number of turns above the code gives its phrase: a prefix is smaller than its code (10_state.md R41). -/
theorem phraseWithin_stable {s : State} (h : Configured s) (c : Nat) : ∀ fuel, IsPhraseCode s c → c < fuel → phraseWithin s.mcs.toNat s.dict fuel c = phrase s c := by
  induction c using Nat.strong_induction_on with
  | _ c ih =>
    intro fuel hc hf
    cases fuel with
    | zero => omega
    | succ f =>
      rcases hc with hl | ⟨h1, h2⟩
      · simp [phrase, phraseWithin, hl]
      · have hnl : ¬ c < 2 ^ s.mcs.toNat := by simp only [firstCode] at h1; omega
        obtain ⟨w, hw, hp, -⟩ := h.wordsValid c h2 h1
        have hle := h.ctsWithin
        have hpc : IsPhraseCode s w.pfx.toNat := by
          rcases hp with hp | ⟨hp1, hp2⟩
          · exact .inl (by omega)
          · exact .inr ⟨hp1, by omega⟩
        have hlt : w.pfx.toNat < c := by omega
        simp only [phrase, phraseWithin, hnl, if_false, hw]
        rw [ih _ hlt f hpc (by omega), ih _ hlt c hpc hlt]

/-- A phrase code stands for its prefix's phrase extended by its index. -/
theorem phrase_word {s : State} (h : Configured s) {c : Nat} (h1 : firstCode s.mcs ≤ c) (h2 : c < s.next.toNat) :
    ∃ w, s.dict.read c = some w ∧ IsPhraseCode s w.pfx.toNat ∧ w.pfx.toNat < c ∧ phrase s c = phrase s w.pfx.toNat ++ [w.sym.toNat] := by
  have hnl : ¬ c < 2 ^ s.mcs.toNat := by simp only [firstCode] at h1; omega
  obtain ⟨w, hw, hp, -⟩ := h.wordsValid c h2 h1
  have hle := h.ctsWithin
  have hpc : IsPhraseCode s w.pfx.toNat := by
    rcases hp with hp | ⟨hp1, hp2⟩
    · exact .inl (by omega)
    · exact .inr ⟨hp1, by omega⟩
  have hlt : w.pfx.toNat < c := by omega
  refine ⟨w, hw, hpc, hlt, ?_⟩
  conv_lhs => simp only [phrase, phraseWithin, hnl, if_false, hw]
  rw [phraseWithin_stable h _ c hpc hlt]

theorem phrase_ne_nil {s : State} (h : Configured s) {c : Nat} (hc : IsPhraseCode s c) : phrase s c ≠ [] := by
  rcases hc with hl | ⟨h1, h2⟩
  · simp [phrase_literal hl]
  · obtain ⟨w, -, -, -, he⟩ := phrase_word h h1 h2; simp [he]

/-- A table that holds the words of another gives its codes the same phrases. -/
theorem phrase_congr {s t : State} (h : Configured s) (hm : t.mcs = s.mcs) (hd : ∀ c, firstCode s.mcs ≤ c → c < s.next.toNat → t.dict.read c = s.dict.read c) (c : Nat) :
   IsPhraseCode s c → phrase t c = phrase s c := by
  have key : ∀ fuel c, IsPhraseCode s c → phraseWithin s.mcs.toNat t.dict fuel c = phraseWithin s.mcs.toNat s.dict fuel c := by
    intro fuel
    induction fuel with
    | zero => intros; rfl
    | succ f ih =>
      intro c hc
      simp only [phraseWithin]
      split
      · rfl
      · next hn =>
        rcases hc with hl | ⟨h1, h2⟩
        · exact absurd hl hn
        · obtain ⟨w, hw, hp, -, -⟩ := phrase_word h h1 h2
          rw [hd c h1 h2, hw]; simp only [ih _ hp]
  intro hc; simp only [phrase, hm]; exact key _ _ hc

end Sys2Proof.Reference
end

