-- ==== Sys2Proof/Tests/Slice0.lean ====
section
/-! SUPPORT. Tests: the checks of `Instr.wf`, decoding of words written out from the spec, single steps against the
vectors of 95_test_vectors.md, and for every statement with hypotheses a witness that meets them. -/

namespace Sys2Proof.Tests

open Sys2Proof.Machine Sys2Proof.Reference

/-- The outcome is a next state with the property. -/
def after (o : Host.Outcome State Fault Refusal) (p : State → Bool) : Bool :=
  match o with
  | .next t => p t
  | .fault _ => false
  | .refused _ => false

/-! Small states, as 95_test_vectors.md gives them. -/

/-- After `START 4` (section 2.1). -/
def opened4 : State :=
  { State.reset with cts := 4, mcs := 2, cw := 3, next := 6, acc := 4, nb := 3, st := .active }

/-- After `START 2; SYM 1; SYM 1` (program P2). -/
def oneEntry : State :=
  { State.reset with
    cts := 2, mcs := 2, cw := 3, next := 7, cur := 1, pv := true, acc := 0x0C, nb := 6, st := .active
    dict := [(6, ⟨1, 1⟩)] }

/-- After `START 4; SYM 0; SYM 0; SYM 1` (program P1), where `NEXT` = `2^CW`. -/
def growthNext : State :=
  { opened4 with
    next := 8, cur := 1, pv := true, acc := 0, nb := 1, dict := [(6, ⟨0, 0⟩), (7, ⟨0, 1⟩)], out := [⟨0x04, false⟩] }

/-- A frame of 4 colours in which the next entry is the 4096th; the words that matter to no test have no value. -/
def fullNext : State :=
  { opened4 with cw := 12, next := 4095, cur := 1, pv := true, acc := 0, nb := 0 }

/-- A block in `ERR` after `START 4; SYM 4` (section 2.6). -/
def errored : State := { opened4 with st := .err, errc := .badIndex }

/-! The checks of `Instr.wf`: for each, a term it refuses beside one it accepts. -/

theorem test_wf_b0 : (Instr.illegalEndArgB0 2).wf = false ∧ (Instr.illegalEndArgB0 511).wf = true := by decide
theorem test_wf_b1 : (Instr.illegalEndArgB1 1).wf = false ∧ (Instr.illegalEndArgB1 2).wf = true := by decide
theorem test_wf_b2 : (Instr.illegalEndArgB2 2).wf = false ∧ (Instr.illegalEndArgB2 4).wf = true := by decide
theorem test_wf_b3 : (Instr.illegalEndArgB3 0).wf = false ∧ (Instr.illegalEndArgB3 8).wf = true := by decide
theorem test_wf_b4 : (Instr.illegalEndArgB4 24).wf = false ∧ (Instr.illegalEndArgB4 16).wf = true := by decide
theorem test_wf_b5 : (Instr.illegalEndArgB5 64).wf = false ∧ (Instr.illegalEndArgB5 32).wf = true := by decide
theorem test_wf_b6 : (Instr.illegalEndArgB6 65).wf = false ∧ (Instr.illegalEndArgB6 64).wf = true := by decide
theorem test_wf_b7 : (Instr.illegalEndArgB7 256).wf = false ∧ (Instr.illegalEndArgB7 384).wf = true := by decide
theorem test_wf_b8 : (Instr.illegalEndArgB8 1).wf = false ∧ (Instr.illegalEndArgB8 256).wf = true := by decide

/-! Decoding: words written bit by bit from 30_encoding.md R72 to R75, `op` in the two high bits. -/

theorem test_decode_start : decode 0b00_100000000#11 = .start 256 := by decide
theorem test_decode_sym : decode 0b01_011111110#11 = .sym 254 := by decide
theorem test_decode_end : decode 0b10_000000000#11 = .endCmd := by decide
theorem test_decode_b0 : decode 0b10_110000001#11 = .illegalEndArgB0 0x181 := by decide
theorem test_decode_b1 : decode 0b10_000000110#11 = .illegalEndArgB1 6 := by decide
theorem test_decode_b2 : decode 0b10_100000100#11 = .illegalEndArgB2 0x104 := by decide
theorem test_decode_b3 : decode 0b10_000001000#11 = .illegalEndArgB3 8 := by decide
theorem test_decode_b4 : decode 0b10_001010000#11 = .illegalEndArgB4 0x50 := by decide
theorem test_decode_b5 : decode 0b10_000100000#11 = .illegalEndArgB5 0x20 := by decide
theorem test_decode_b6 : decode 0b10_111000000#11 = .illegalEndArgB6 0x1C0 := by decide
theorem test_decode_b7 : decode 0b10_010000000#11 = .illegalEndArgB7 0x80 := by decide
theorem test_decode_b8 : decode 0b10_100000000#11 = .illegalEndArgB8 0x100 := by decide
theorem test_decode_op3 : decode 0b11_000000101#11 = .illegalOp3 5 := by decide

/-- A number of more than 11 bits is rejected by name (log entry 13). -/
theorem test_decode_wide : decodeNumber 0x800 = .error .notElevenBits ∧
    decodeBytes [0x00, 0x08] = .error .notElevenBits ∧ decodeBytes [0x03, 0x02] = .ok (.sym 3) := by decide

theorem test_decodeTableWord : decodeTableWord 16 0x203 = some (.sym 3) ∧ decodeTableWord 11 0x401 = some (.illegalEndArgB0 1) ∧
    decodeTableWord 16 0x800 = none := by decide

/-- The word given to `withFetchWord` runs as the first command after reset. -/
theorem test_withFetchWord : after (step (State.reset.withFetchWord 16 0x004)) (fun t => t == opened4) = true := by
  decide

/-! Single steps, expected values from 95_test_vectors.md. -/

/-- Section 2.1, `START 256`. -/
theorem test_start_256 : after (exec (.start 256) State.reset) (fun t =>
    t.cts == 256 && t.mcs == 8 && t.cw == 9 && t.next == 258 && t.acc == 1 && t.nb == 1 && t.out == [⟨0x00, false⟩]) = true := by
  decide

/-- Section 2.1, `START 255`; the registers keep their values. -/
theorem test_start_255 : after (exec (.start 255) State.reset) (fun t =>
    t == { State.reset with st := .err, errc := .badCts }) = true := by
  decide

/-- Program P2, the fifth command: a miss after a match; the byte `8C`. -/
theorem test_sym_miss : after (exec (.sym 1) { oneEntry with cur := 6 }) (fun t =>
    t.out == [⟨0x8C, false⟩] && t.next == 8 && t.cur == 1 && t.nb == 1 && t.acc == 1 &&
      t.dict == [(6, ⟨1, 1⟩), (7, ⟨6, 1⟩)]) = true := by
  decide

/-- Program P1, the fifth command: a miss with growth. -/
theorem test_sym_growth : after (exec (.sym 2) growthNext) (fun t =>
    t.cw == 4 && t.next == 9 && t.cur == 2 && t.nb == 4 && t.acc == 2 && t.out == growthNext.out) = true := by
  decide

/-- Section 2.4, `END` with `NEXT` = `2^CW`: no growth, the byte `52`, marked. -/
theorem test_end_no_growth : after (exec .endCmd growthNext) (fun t =>
    t.out == [⟨0x04, false⟩, ⟨0x52, true⟩] && t.cw == 3 && t.next == 8 && t.cur == 1 && t.st == .idle) = true := by
  decide

/-- Section 2.4, `END` after `START 128`: the flush finds nothing pending and marks `81`. -/
theorem test_end_marks : after (exec .endCmd { State.reset with
    cts := 128, mcs := 7, cw := 8, next := 130, st := .active, out := [⟨0x80, false⟩] }) (fun t =>
    t.out == [⟨0x80, false⟩, ⟨0x81, true⟩] && t.st == .idle) = true := by
  decide

/-- Section 2.6: the words `0x401`, `0x7FF` and `0x600` in the reset state, where decode is checked before `ST`. -/
theorem test_illegal : [0x401#11, 0x5FF#11, 0x500#11, 0x600#11, 0x7FF#11].all (fun w =>
    after (exec (decode w) State.reset) (fun t => statusSt t == 2 && statusErrc t == 4)) = true := by
  decide

/-- Section 2.7: RESET keeps the bytes delivered and loses the frame. -/
theorem test_reset : after (step { growthNext with input := [.reset] }) (fun t =>
    t == { State.reset with out := [⟨0x04, false⟩] }) = true := by
  decide

/-- 30_encoding.md R77 and program P1: the words of `ENCODE 4, [0, 0, 1, 2]`. -/
theorem test_encodeEvents : encodeEvents 4 [0, 0, 1, 2] =
    [.cmd 0x004, .cmd 0x200, .cmd 0x200, .cmd 0x201, .cmd 0x202, .cmd 0x400] := by decide

/-- Program P1: the reference encoder's codes and bytes. -/
theorem test_reference : frameCodes 2 [0, 0, 1, 2] = [(4, 3), (0, 3), (0, 3), (1, 3), (2, 4), (5, 4)] ∧
    frameBytes (frameCodes 2 [0, 0, 1, 2]) = [⟨0x04, false⟩, ⟨0x22, false⟩, ⟨0x05, true⟩] := by decide

/-! The states above meet the invariant, and the widths. -/

theorem test_reset_inv : Inv State.reset :=
  ⟨by decide, by decide, by decide, .inl ⟨rfl, rfl, rfl, rfl, rfl, rfl, rfl, rfl, rfl⟩, (fun h => nomatch h),
    fun _ => ⟨rfl, rfl, rfl⟩⟩

theorem test_opened4_configured : Configured opened4 := by
  refine ⟨⟨2, by decide, by decide, rfl⟩, by decide, by decide, by decide, by decide, by decide,
    by decide, by decide, (fun h => nomatch h), fun c h1 h2 => ?_, fun d h1 c h2 h3 => ?_⟩
  · exact absurd h2 (Nat.not_le.2 h1)
  · exact absurd h3 (Nat.not_le.2 (Nat.lt_trans h2 h1))

theorem test_opened4_inv : Inv opened4 :=
  ⟨by decide, by decide, by decide, .inr test_opened4_configured, fun _ => test_opened4_configured,
    (fun h => nomatch h)⟩

theorem test_oneEntry_configured : Configured oneEntry := by
  refine ⟨⟨1, by decide, by decide, rfl⟩, by decide, by decide, by decide, by decide, by decide,
    by decide, by decide, fun _ => .inl (by decide), fun c h1 h2 => ?_, fun d h1 c h2 h3 => ?_⟩
  · have h6 : c = 6 := Nat.le_antisymm (Nat.le_of_lt_succ h1) h2
    subst h6
    exact ⟨⟨1, 1⟩, rfl, .inl (by decide), by decide⟩
  · exact absurd h3 (Nat.not_le.2 (Nat.lt_of_lt_of_le h2 (Nat.le_of_lt_succ h1)))

theorem test_oneEntry_inv : Inv oneEntry :=
  ⟨by decide, by decide, by decide, .inr test_oneEntry_configured, fun _ => test_oneEntry_configured,
    (fun h => nomatch h)⟩

theorem test_oneEntry_widths : WidthsHold oneEntry := by constructor <;> decide

theorem test_growthNext_widths : WidthsHold growthNext := by constructor <;> decide

theorem test_fullNext_widths : WidthsHold fullNext := by constructor <;> decide

theorem test_no_table_size : ¬ IsTableSize 3 ∧ ¬ IsTableSize 1 ∧ ¬ IsTableSize 257 := by
  refine ⟨?_, ?_, ?_⟩ <;>
  · rintro ⟨n, h1, h8, h⟩
    interval_cases n <;> revert h <;> decide

/-! Witnesses: for each statement with hypotheses, named after it, a concrete input that meets them together; for a
statement of several clauses, one for each clause, at the edge of its range. -/

theorem test_witness_DecodeOfEncodeIsTheCommand :
    (Instr.start 0).wf = true ∧ (Instr.sym 511).wf = true ∧ Instr.endCmd.wf = true ∧
    (Instr.illegalEndArgB0 1).wf = true ∧ (Instr.illegalEndArgB1 0x1FE).wf = true ∧ (Instr.illegalEndArgB2 0x1FC).wf = true ∧
    (Instr.illegalEndArgB3 0x1F8).wf = true ∧ (Instr.illegalEndArgB4 0x1F0).wf = true ∧
    (Instr.illegalEndArgB5 0x1E0).wf = true ∧ (Instr.illegalEndArgB6 0x1C0).wf = true ∧
    (Instr.illegalEndArgB7 0x180).wf = true ∧ (Instr.illegalEndArgB8 0x100).wf = true ∧ (Instr.illegalOp3 511).wf = true := by
  decide

theorem test_witness_ReservedWordsAreIllegal :
    isReserved (decode 0x401) = true ∧ isReserved (decode 0x5FF) = true ∧ isReserved (decode 0x600) = true ∧
    isReserved (decode 0x7FF) = true ∧ isReserved (decode 0x400) = false ∧ isReserved (decode 0x3FF) = false ∧
    isReserved (decode 0x000) = false ∧ State.reset.st ≠ .err ∧ opened4.st ≠ .err := by
  decide

theorem test_witness_StepRunsTheDecodedCommand :
    ({ opened4 with input := [.cmd 0x203, .reset] } : State).input = .cmd 0x203 :: [.reset] ∧ decode 0x203 = .sym 3 := by
  decide

theorem test_witness_CommandsDoNotLookAhead :
    (∃ t, exec (.sym 0) oneEntry = .next t) ∧ ∃ r, exec (.sym 0) { oneEntry with next := 4096 } = .fault r :=
  ⟨⟨_, rfl⟩, ⟨_, rfl⟩⟩

theorem test_witness_ResetSetsEveryRegister :
    ({ growthNext with input := [.reset, .cmd 4] } : State).input = .reset :: [.cmd 4] := rfl

theorem test_witness_ResetGivesTheResetState :
    ({ errored with input := [.reset] } : State).input = .reset :: [] := rfl

theorem test_witness_WithoutAnEventTheBlockWaits : oneEntry.input = [] := rfl

/-- Clause by clause: `ERR`; a reserved word; `START` in `ACTIVE` and, with 3, 1 and 257, in `IDLE`; `SYM` in `IDLE` and,
with the index 4 of 4 colours, in `ACTIVE`; `END` in `IDLE`. The other clauses' premises are false of each. -/
theorem test_witness_FaultChecksInOrder :
    errored.st = .err ∧
    (opened4.st = .active ∧ isReserved (decode 0x401) = true) ∧
    (decode 0x004 = .start 4 ∧ opened4.st = .active) ∧
    (decode 0x003 = .start 3 ∧ decode 0x001 = .start 1 ∧ decode 0x101 = .start 257 ∧ State.reset.st = .idle ∧
      ¬ IsTableSize 3 ∧ ¬ IsTableSize 1 ∧ ¬ IsTableSize 257) ∧
    (decode 0x32C = .sym 300 ∧ State.reset.st = .idle) ∧
    (decode 0x204 = .sym 4 ∧ opened4.st = .active ∧ opened4.cts.toNat ≤ (4 : Arg).toNat) ∧
    (decode 0x400 = .endCmd ∧ State.reset.st = .idle) :=
  ⟨rfl, by decide, by decide, ⟨by decide, by decide, by decide, rfl, test_no_table_size⟩, by decide, by decide, by decide⟩

/-- Two states with the same `ST` and `CTS`; the command faults in both, or in neither. -/
theorem test_witness_FaultsDependOnStAndCtsAlone :
    opened4.st = growthNext.st ∧ opened4.cts = growthNext.cts ∧ opened4.st ≠ .err ∧
    (∃ t t', exec (.sym 3) opened4 = .next t ∧ exec (.sym 3) growthNext = .next t' ∧ t.st ≠ .err) ∧
    (∃ t t', exec (.sym 4) opened4 = .next t ∧ exec (.sym 4) growthNext = .next t' ∧ t.st = .err) :=
  ⟨rfl, rfl, by decide, ⟨_, _, rfl, rfl, by decide⟩, ⟨_, _, rfl, rfl, rfl⟩⟩

theorem test_witness_FaultEntryChangesOnlyStAndErrc :
    opened4.st ≠ .err ∧ ∃ t, exec (.sym 4) opened4 = .next t ∧ t.st = .err := ⟨by decide, _, rfl, rfl⟩

theorem test_witness_BadCtsExactlyForIllegalSizes :
    State.reset.st = .idle ∧ (∃ n, 1 ≤ n ∧ (2 : Arg).toNat = 2 ^ n) ∧ (∃ n, 1 ≤ n ∧ (256 : Arg).toNat = 2 ^ n) ∧
    ∃ t, exec (.start 257) State.reset = .next t ∧ t.errc = .badCts :=
  ⟨rfl, ⟨1, by decide, rfl⟩, ⟨8, by decide, rfl⟩, _, rfl, rfl⟩

/-- The edges of the alphabets of 2 and of 256 colours. -/
theorem test_witness_BadIndexExactlyOutsideTheAlphabet :
    oneEntry.st = .active ∧ ¬ oneEntry.cts.toNat ≤ (1 : Arg).toNat ∧ oneEntry.cts.toNat ≤ (2 : Arg).toNat ∧
    ({ opened4 with cts := 256 } : State).st = .active ∧ ¬ (256 : BitVec 9).toNat ≤ (255 : Arg).toNat ∧
    (256 : BitVec 9).toNat ≤ (256 : Arg).toNat := by decide

theorem test_witness_ProtocolFaults : opened4.st = .active ∧ State.reset.st = .idle := by decide

theorem test_witness_ReservedCommandsTakeIllegalCmd : opened4.st ≠ .err ∧ State.reset.st ≠ .err := by decide

theorem test_witness_ErrIgnoresEveryCommand : errored.st = .err := rfl

/-- In `ERR`: RESET presented, a command presented, nothing presented. -/
theorem test_witness_OnlyResetLeavesErr :
    errored.st = .err ∧ ({ errored with input := [.reset] } : State).input = .reset :: [] ∧
    (∀ rest, ({ errored with input := [.cmd 4] } : State).input ≠ .reset :: rest) ∧
    (∀ rest, errored.input ≠ .reset :: rest) :=
  ⟨rfl, rfl, (fun _ h => by cases h), (fun _ h => by cases h)⟩

theorem test_witness_MinCodeSizeIsTheSmallest :
    (1 ≤ 1 ∧ 1 ≤ 8 ∧ (2 : Arg).toNat = 2 ^ 1) ∧ (1 ≤ 2 ∧ 2 ≤ 8 ∧ (4 : Arg).toNat = 2 ^ 2) ∧
    (1 ≤ 3 ∧ 3 ≤ 8 ∧ (8 : Arg).toNat = 2 ^ 3) ∧ (1 ≤ 8 ∧ 8 ≤ 8 ∧ (256 : Arg).toNat = 2 ^ 8) := by decide

/-- `ERR`; `ACTIVE`; `IDLE` with a size that is none; `IDLE` with 2, 64, 128 and 256 (`n` = 1, 6, 7, 8). -/
theorem test_witness_StartBeginsAFrame :
    errored.st = .err ∧ opened4.st = .active ∧ State.reset.st = .idle ∧ ¬ IsTableSize 3 ∧
    (2 : Arg).toNat = 2 ^ 1 ∧ (64 : Arg).toNat = 2 ^ 6 ∧ (128 : Arg).toNat = 2 ^ 7 ∧ (256 : Arg).toNat = 2 ^ 8 :=
  ⟨rfl, rfl, rfl, test_no_table_size.1, rfl, rfl, rfl, rfl⟩

theorem test_witness_StartFrame :
    (∃ t, exec (.start 4) State.reset = .next t) ∧ (∃ t, exec (.start 4) opened4 = .next t) ∧
    ∃ t, exec (.start 4) errored = .next t := ⟨⟨_, rfl⟩, ⟨_, rfl⟩, _, rfl⟩

theorem test_witness_SymTakesTheFirstIndex :
    opened4.st = .active ∧ opened4.pv = false ∧ (3 : Arg).toNat < opened4.cts.toNat ∧ (0 : Arg).toNat < opened4.cts.toNat := by
  decide

theorem test_witness_SymAdoptsAMatch :
    Inv oneEntry ∧ oneEntry.st = .active ∧ oneEntry.pv = true ∧ (1 : Arg).toNat < oneEntry.cts.toNat ∧
    HoldsPairAt oneEntry oneEntry.cur (1 : Arg).toNat 6 :=
  ⟨test_oneEntry_inv, rfl, rfl, by decide, by decide, by decide, ⟨1, 1⟩, rfl, rfl, rfl⟩

/-- The three states meet every hypothesis of a miss. -/
abbrev MissHolds (s : State) (k : Arg) : Prop :=
  WidthsHold s ∧ s.dict.wf ∧ s.cts.toNat ≤ 2 ^ s.mcs.toNat ∧ s.st = .active ∧ s.pv = true ∧ k.toNat < s.cts.toNat ∧
    ∀ c, ¬ HoldsPairAt s s.cur k.toNat c

theorem test_miss_oneEntry : MissHolds oneEntry 0 := by
  refine ⟨test_oneEntry_widths, by decide, by decide, rfl, rfl, by decide, ?_⟩
  rintro c ⟨h1, h2, w, hw, -, hk⟩
  have h6 : c = 6 := Nat.le_antisymm (Nat.le_of_lt_succ h2) h1
  subst h6
  cases hw
  revert hk; decide

theorem test_miss_growthNext : MissHolds growthNext 2 := by
  refine ⟨test_growthNext_widths, by decide, by decide, rfl, rfl, by decide, ?_⟩
  rintro c ⟨h1, h2, w, hw, hp, hk⟩
  have h67 : c = 6 ∨ c = 7 := by
    have h1 : 6 ≤ c := h1
    have h2 : c < 8 := h2
    omega
  rcases h67 with rfl | rfl <;> cases hw <;> revert hk <;> decide

theorem test_miss_fullNext : MissHolds fullNext 3 := by
  refine ⟨test_fullNext_widths, by decide, by decide, rfl, rfl, by decide, ?_⟩
  rintro c ⟨-, -, w, hw, -⟩
  cases hw

/-- A miss below the growth test, at it, and at the 4096th entry. -/
theorem test_witness_SymAddsAnEntryOnAMiss :
    (MissHolds oneEntry 0 ∧ oneEntry.next.toNat < 4095 ∧ oneEntry.next.toNat ≠ 2 ^ oneEntry.cw.toNat) ∧
    (MissHolds growthNext 2 ∧ growthNext.next.toNat < 4095 ∧ growthNext.next.toNat = 2 ^ growthNext.cw.toNat) ∧
    (MissHolds fullNext 3 ∧ fullNext.next.toNat = 4095) :=
  ⟨⟨test_miss_oneEntry, by decide, by decide⟩, ⟨test_miss_growthNext, by decide, by decide⟩,
    test_miss_fullNext, by decide⟩

/-- A match, a miss with growth and one with a clear (the width changes in both); `START` in `IDLE`. -/
theorem test_witness_WidthGrowsOnlyOnAMiss :
    (WidthsHold oneEntry ∧ oneEntry.dict.wf ∧ oneEntry.st = .active ∧ ∃ t, exec (.sym 1) oneEntry = .next t) ∧
    (MissHolds growthNext 2 ∧ growthNext.next.toNat = 2 ^ growthNext.cw.toNat ∧
      ∃ t, exec (.sym 2) growthNext = .next t ∧ t.cw ≠ growthNext.cw) ∧
    (MissHolds fullNext 3 ∧ ∃ t, exec (.sym 3) fullNext = .next t ∧ t.cw ≠ fullNext.cw) ∧
    (State.reset.st = .idle ∧ ∃ t, exec (.start 2) State.reset = .next t ∧ t.st = .active) :=
  ⟨⟨test_oneEntry_widths, by decide, rfl, _, rfl⟩,
    ⟨test_miss_growthNext, by decide, _, rfl, by decide⟩,
    ⟨test_miss_fullNext, _, rfl, by decide⟩, rfl, _, rfl, rfl⟩

theorem test_witness_TheFullTableIsCleared :
    (MissHolds oneEntry 0 ∧ oneEntry.next.toNat < 4095) ∧ (MissHolds fullNext 3 ∧ fullNext.next.toNat = 4095) ∧
    (Inv oneEntry ∧ oneEntry.st = .active ∧ oneEntry.pv = true ∧ HoldsPairAt oneEntry 1 1 6) :=
  ⟨⟨test_miss_oneEntry, by decide⟩, ⟨test_miss_fullNext, by decide⟩, test_oneEntry_inv, rfl, rfl, by decide,
    by decide, ⟨1, 1⟩, rfl, rfl, rfl⟩

/-- `ERR`, `IDLE`, an index outside the alphabet, a first index, a match, a miss. -/
theorem test_witness_SymFrame :
    (∃ t, exec (.sym 1) errored = .next t) ∧ (∃ t, exec (.sym 1) State.reset = .next t) ∧
    (∃ t, exec (.sym 4) opened4 = .next t) ∧ (∃ t, exec (.sym 1) opened4 = .next t) ∧
    (∃ t, exec (.sym 1) oneEntry = .next t) ∧ (∃ t, exec (.sym 0) oneEntry = .next t ∧
      oneEntry.st = .active ∧ (0 : Arg).toNat < oneEntry.cts.toNat ∧ oneEntry.pv = true ∧
      dictLookup oneEntry.cur (0 : Arg).toNat oneEntry = none) :=
  ⟨⟨_, rfl⟩, ⟨_, rfl⟩, ⟨_, rfl⟩, ⟨_, rfl⟩, ⟨_, rfl⟩, _, rfl, rfl, by decide, rfl, by decide⟩

theorem test_witness_EndFinishesTheFrame :
    errored.st = .err ∧ State.reset.st = .idle ∧ (oneEntry.st = .active ∧ WidthsHold oneEntry ∧ oneEntry.pv = true) ∧
    (opened4.st = .active ∧ WidthsHold opened4 ∧ opened4.pv = false) :=
  ⟨rfl, rfl, ⟨rfl, test_oneEntry_widths, rfl⟩, rfl, by constructor <;> decide, rfl⟩

theorem test_witness_EmptyFrameIsClearThenEoi :
    State.reset.st = .idle ∧ (2 : Arg).toNat = 2 ^ 1 ∧ (256 : Arg).toNat = 2 ^ 8 := ⟨rfl, rfl, rfl⟩

theorem test_witness_EndFrame :
    (∃ t, exec .endCmd errored = .next t) ∧ (∃ t, exec .endCmd State.reset = .next t) ∧
    ∃ t, exec .endCmd oneEntry = .next t := ⟨⟨_, rfl⟩, ⟨_, rfl⟩, _, rfl⟩

theorem test_witness_EndDeliversAMarkedByte :
    Inv oneEntry ∧ oneEntry.st = .active ∧ ∃ t, exec .endCmd oneEntry = .next t := ⟨test_oneEntry_inv, rfl, _, rfl⟩

/-- The widest case of 42_bit_packing.md R140: seven bits pending and a 12-bit code. -/
theorem test_witness_EmitDeliversCompleteBytes :
    4095 < 2 ^ 12 ∧ ({ opened4 with acc := 127, nb := 7 } : State).acc.toNat < 2 ^ ({ opened4 with acc := 127, nb := 7 } : State).nb.toNat := by
  decide

theorem test_witness_FlushMarksTheLastByte :
    opened4.nb ≠ 0 ∧ fullNext.nb = 0 ∧
    ({ fullNext with out := [⟨1, true⟩, ⟨2, false⟩] } : State).out = [⟨1, true⟩] ++ [] ++ [⟨2, false⟩] := by decide

theorem test_witness_PackingClosedFormula :
    (∀ p ∈ [(4, 3), (0, 3), (7, 3), (4095, 12)], p.1 < 2 ^ p.2) ∧ State.reset.acc.toNat < 2 ^ State.reset.nb.toNat := by
  decide

theorem test_witness_DictFormIsCanonical :
    oneEntry.dict.wf ∧ 4095 < 4096 ∧ growthNext.dict.wf ∧
    (Memory.write 7 ⟨0, 1⟩ (Memory.write 6 ⟨0, 0⟩ [])).wf ∧
    ∀ c, growthNext.dict.read c = (Memory.write 7 ⟨0, 1⟩ (Memory.write 6 ⟨0, 0⟩ [])).read c :=
  ⟨by decide, by decide, by decide, by decide, fun _ => rfl⟩

theorem test_witness_LookupFindsTheOneCode : Inv oneEntry ∧ HoldsPairAt oneEntry 1 1 6 :=
  ⟨test_oneEntry_inv, by decide, by decide, ⟨1, 1⟩, rfl, rfl, rfl⟩

theorem test_witness_InitialTableHoldsNoPair : opened4.next.toNat = firstCode opened4.mcs := by decide

/-- For every row of the transition table a state, an event and a next state. -/
theorem test_witness_StTransitionTable :
    (∃ t, step { errored with input := [.reset] } = .next t) ∧ (∃ t, step { errored with input := [.cmd 4] } = .next t) ∧
    (∃ t, step { opened4 with input := [.cmd 0x401] } = .next t) ∧
    (∃ t, step { State.reset with input := [.cmd 0x004] } = .next t) ∧
    (∃ t, step { State.reset with input := [.cmd 0x003] } = .next t) ∧
    (∃ t, step { opened4 with input := [.cmd 0x004] } = .next t) ∧
    (∃ t, step { State.reset with input := [.cmd 0x200] } = .next t) ∧
    (∃ t, step { opened4 with input := [.cmd 0x203] } = .next t) ∧
    (∃ t, step { opened4 with input := [.cmd 0x204] } = .next t) ∧
    (∃ t, step { State.reset with input := [.cmd 0x400] } = .next t) ∧
    ∃ t, step { opened4 with input := [.cmd 0x400] } = .next t :=
  ⟨⟨_, rfl⟩, ⟨_, rfl⟩, ⟨_, rfl⟩, ⟨_, rfl⟩, ⟨_, rfl⟩, ⟨_, rfl⟩, ⟨_, rfl⟩, ⟨_, rfl⟩, ⟨_, rfl⟩, ⟨_, rfl⟩, _, rfl⟩

theorem test_witness_OnlyStartAndResetWriteTheConfiguration :
    (∃ t, step { State.reset with input := [.cmd 0x004] } = .next t ∧ t.cts ≠ State.reset.cts) ∧
    ∃ t, step { opened4 with input := [.reset] } = .next t ∧ t.mcs ≠ opened4.mcs :=
  ⟨⟨_, rfl, by decide⟩, _, rfl, by decide⟩

theorem test_witness_DeliveredBytesStay :
    ∃ t, step { growthNext with input := [.cmd 0x400] } = .next t := ⟨_, rfl⟩

theorem test_witness_OnlyEndMarksAByte :
    (∃ t, exec (.sym 2) fullNext = .next t ∧ (Instr.sym 2 ≠ .endCmd ∨ fullNext.st ≠ .active)) ∧
    ∃ t, exec .endCmd State.reset = .next t ∧ (Instr.endCmd ≠ .endCmd ∨ State.reset.st ≠ .active) :=
  ⟨⟨_, rfl, .inl (by decide)⟩, _, rfl, .inr (by decide)⟩

theorem test_witness_BytesPerStep :
    (Inv State.reset ∧ ∃ t, exec (.start 256) State.reset = .next t) ∧
    (Inv oneEntry ∧ (∃ t, exec (.sym 0) oneEntry = .next t) ∧ (∃ t, exec .endCmd oneEntry = .next t) ∧
      oneEntry.st = .active) :=
  ⟨⟨test_reset_inv, _, rfl⟩, test_oneEntry_inv, ⟨_, rfl⟩, ⟨_, rfl⟩, rfl⟩

theorem test_witness_StepKeepsTheInvariant :
    Inv { State.reset with input := [.cmd 0x004] } ∧ ∃ t, step { State.reset with input := [.cmd 0x004] } = .next t :=
  ⟨test_reset_inv.withInput _, _, rfl⟩

theorem test_witness_ReachableStatesNeverStop : Reachable { State.reset with input := encodeEvents 4 [0, 0, 1, 2] } :=
  .afterReset _

/-- The one stop, in a state outside the invariant. -/
theorem test_witness_StopsOnlyWithoutAWordToStore :
    ∃ r, exec (.sym 0) { oneEntry with next := 4096 } = .fault r := ⟨_, rfl⟩

theorem test_witness_EmittedCodesFitTheirWidth : Inv oneEntry ∧ oneEntry.st = .active ∧ oneEntry.pv = true :=
  ⟨test_oneEntry_inv, rfl, rfl⟩

theorem test_witness_CodesStandForDistinctPhrases :
    Inv oneEntry ∧ oneEntry.st = .active ∧ IsPhraseCode oneEntry 6 ∧ IsPhraseCode oneEntry 3 ∧
    phrase oneEntry 6 = [1, 1] :=
  ⟨test_oneEntry_inv, rfl, .inr ⟨by decide, by decide⟩, .inl (by decide), by decide⟩

theorem test_witness_LookupIsMembershipOfThePhrase :
    Inv oneEntry ∧ oneEntry.st = .active ∧ oneEntry.pv = true ∧ (1 : Arg).toNat < oneEntry.cts.toNat ∧
    (0 : Arg).toNat < oneEntry.cts.toNat := ⟨test_oneEntry_inv, rfl, rfl, by decide, by decide⟩

theorem test_witness_FrameDeliversTheEncodersBytes :
    Inv { State.reset with input := encodeEvents 4 [0, 0, 1, 2] ++ [.reset] } ∧
    ({ State.reset with input := encodeEvents 4 [0, 0, 1, 2] ++ [.reset] } : State).st = .idle ∧
    1 ≤ 2 ∧ 2 ≤ 8 ∧ (4 : Arg).toNat = 2 ^ 2 ∧ ∀ k ∈ ([0, 0, 1, 2] : List Arg), k.toNat < (4 : Arg).toNat :=
  ⟨test_reset_inv.withInput _, rfl, by decide, by decide, rfl, by decide⟩

theorem test_witness_FrameIsIndependentOfHistory :
    Inv { State.reset with input := encodeEvents 256 [255, 0] } ∧
    Inv { State.reset with input := encodeEvents 256 [255, 0] ++ [.cmd 4] } ∧
    State.reset.st = .idle ∧ IsTableSize 256 ∧ ∀ k ∈ ([255, 0] : List Arg), k.toNat < (256 : Arg).toNat :=
  ⟨test_reset_inv.withInput _, test_reset_inv.withInput _, rfl, ⟨8, by decide, by decide, rfl⟩, by decide⟩

/-- A frame of three indices and the empty frame; and the sequences the statement speaks of. -/
theorem test_witness_FrameCodesHaveTheirShape :
    (Inv { State.reset with input := encodeEvents 2 [1, 1, 0] } ∧ State.reset.st = .idle ∧
      1 ≤ 1 ∧ 1 ≤ 8 ∧ (2 : Arg).toNat = 2 ^ 1 ∧ (∀ k ∈ ([1, 1, 0] : List Arg), k.toNat < (2 : Arg).toNat) ∧
      frameCodes 2 [1, 1, 0] = framed 2 [(1, 3), (1, 3), (0, 3)] 3) ∧
    (Inv { State.reset with input := encodeEvents 256 [] } ∧ State.reset.st = .idle ∧
      1 ≤ 8 ∧ 8 ≤ 8 ∧ (256 : Arg).toNat = 2 ^ 8 ∧ (∀ k ∈ ([] : List Arg), k.toNat < (256 : Arg).toNat) ∧
      frameCodes 8 [] = framed 8 [] 9) :=
  ⟨⟨test_reset_inv.withInput _, rfl, by decide, by decide, rfl, by decide, by decide⟩,
    test_reset_inv.withInput _, rfl, by decide, by decide, rfl, by decide, by decide⟩

end Sys2Proof.Tests
end

section
/-! The minimum code size of a legal table size (00_scope.md R7). -/

namespace Sys2Proof.Machine

/-- 00_scope.md R7: on a power of two the logarithm is exact. -/
theorem minCodeSize_of_two_pow {cts : Arg} {n : Nat} (hcts : cts.toNat = 2 ^ n) :
    minCodeSize cts = max 2 n := by
  rw [minCodeSize, hcts, Nat.log2_two_pow]

theorem two_le_minCodeSize (cts : Arg) : 2 ≤ minCodeSize cts := Nat.le_max_left ..

/-- 00_scope.md R7: among the integers from 2 up, those at or above the code size are exactly those whose power of two
holds the table. -/
theorem minCodeSize_le_iff {cts : Arg} {n m : Nat} (hcts : cts.toNat = 2 ^ n) (hm : 2 ≤ m) :
    minCodeSize cts ≤ m ↔ cts.toNat ≤ 2 ^ m := by
  rw [minCodeSize_of_two_pow hcts, hcts, Nat.pow_le_pow_iff_right Nat.one_lt_two]
  omega

/-- Settles O20: both bounds are the two directions of `minCodeSize_le_iff`. -/
theorem minCodeSizeIsTheSmallest : Obligations.MinCodeSizeIsTheSmallest := by
  intro n cts _ _ hcts
  have htwo := two_le_minCodeSize cts
  exact ⟨minCodeSize_of_two_pow hcts, htwo, (minCodeSize_le_iff hcts htwo).mp le_rfl,
    fun _ hm => (minCodeSize_le_iff hcts hm).mpr⟩

end Sys2Proof.Machine
end

section
/-! The fields a whole frame operation leaves alone, from those of its parts. -/

namespace Sys2Proof.Machine

@[simp] theorem finishFrame_cts (s : State) : (finishFrame s).cts = s.cts := by simp [finishFrame]
@[simp] theorem finishFrame_mcs (s : State) : (finishFrame s).mcs = s.mcs := by simp [finishFrame]
@[simp] theorem finishFrame_cw (s : State) : (finishFrame s).cw = s.cw := by simp [finishFrame]
@[simp] theorem finishFrame_next (s : State) : (finishFrame s).next = s.next := by simp [finishFrame]
@[simp] theorem finishFrame_cur (s : State) : (finishFrame s).cur = s.cur := by simp [finishFrame]
@[simp] theorem finishFrame_errc (s : State) : (finishFrame s).errc = s.errc := by simp [finishFrame]
@[simp] theorem finishFrame_dict (s : State) : (finishFrame s).dict = s.dict := by simp [finishFrame]
@[simp] theorem finishFrame_input (s : State) : (finishFrame s).input = s.input := by simp [finishFrame]
@[simp] theorem finishFrame_pv (s : State) : (finishFrame s).pv = false := rfl
@[simp] theorem finishFrame_st (s : State) : (finishFrame s).st = .idle := rfl

@[simp] theorem missIndex_cts (k : Arg) (s : State) : (missIndex k s).cts = s.cts := by simp [missIndex]
@[simp] theorem missIndex_mcs (k : Arg) (s : State) : (missIndex k s).mcs = s.mcs := by simp [missIndex]
@[simp] theorem missIndex_pv (k : Arg) (s : State) : (missIndex k s).pv = s.pv := by simp [missIndex]
@[simp] theorem missIndex_st (k : Arg) (s : State) : (missIndex k s).st = s.st := by simp [missIndex]
@[simp] theorem missIndex_errc (k : Arg) (s : State) : (missIndex k s).errc = s.errc := by simp [missIndex]
@[simp] theorem missIndex_input (k : Arg) (s : State) : (missIndex k s).input = s.input := by simp [missIndex]
@[simp] theorem missIndex_cur (k : Arg) (s : State) : (missIndex k s).cur = literalCode k := rfl
@[simp] theorem missIndex_dict (k : Arg) (s : State) :
    (missIndex k s).dict = s.dict.write s.next.toNat ⟨s.cur, symField k⟩ := by simp [missIndex]

end Sys2Proof.Machine
end

section
/-! The packer's invariant `ACC < 2^NB` under `EMIT` and `FLUSH` (10_state.md R42). -/

namespace Sys2Proof.Machine

open Sys2Proof.Reference

/-- 42_bit_packing.md R140: less than a whole byte of fitting bits is left pending. -/
theorem emit_accWithin {s : State} {code w : Nat} (hc : code < 2 ^ w) (hs : s.acc.toNat < 2 ^ s.nb.toNat) :
    (emit code w s).acc.toNat < 2 ^ (emit code w s).nb.toNat :=
  (emitted_emit hc hs).accWithin hs (by simpa using hc)

/-- 42_bit_packing.md R142: `FLUSH` leaves nothing pending. -/
theorem flush_empties (before : Nat) {s : State} (hs : s.acc.toNat < 2 ^ s.nb.toNat) :
    (flush before s).acc = 0 ∧ (flush before s).nb = 0 := by
  unfold flush
  split
  · exact ⟨rfl, rfl⟩
  · next hnb =>
    have hnb : s.nb.toNat = 0 := Nat.eq_zero_of_not_pos hnb
    rw [hnb] at hs
    exact ⟨BitVec.eq_of_toNat_eq (Nat.lt_one_iff.1 hs), BitVec.eq_of_toNat_eq hnb⟩

end Sys2Proof.Machine
end

section
/-! The codes an open frame can emit, against the width in force (30_encoding.md R80). -/

namespace Sys2Proof.Machine

theorem Configured.eoiFits {s : State} (h : Configured s) : eoiCode s.mcs < 2 ^ s.cw.toNat := by
  obtain ⟨_, _, _, _, _, _, hfour, _, hdouble⟩ := h.pows
  simp only [eoiCode]
  omega

theorem Configured.clrFits {s : State} (h : Configured s) : clrCode s.mcs < 2 ^ s.cw.toNat :=
  Nat.lt_trans (Nat.lt_succ_self _) h.eoiFits

/-- 10_state.md R39: the two bounds on `NEXT` say how many bits `NEXT - 1` has. -/
theorem Configured.cw_eq_bits {s : State} (h : Configured s) : Nat.log2 (s.next.toNat - 1) + 1 = s.cw.toNat := by
  have hcw := h.cwLow
  have habove := h.nextAboveHalf
  have hwithin := h.nextWithin
  have hpos := Nat.two_pow_pos (s.cw.toNat - 1)
  have hsucc : s.cw.toNat - 1 + 1 = s.cw.toNat := by omega
  have hlog : Nat.log2 (s.next.toNat - 1) = s.cw.toNat - 1 := by
    rw [Nat.log2_eq_iff (by omega), hsucc]
    omega
  rw [hlog, hsucc]

/-- 10_state.md R43: the current code is neither of the two control codes. -/
theorem Configured.cur_ne_control {s : State} (h : Configured s) (hpv : s.pv = true) :
    s.cur.toNat ≠ clrCode s.mcs ∧ s.cur.toNat ≠ eoiCode s.mcs := by
  have hcts := h.ctsWithin
  simp only [clrCode, eoiCode]
  rcases h.curIsEntry hpv with hlit | ⟨hfirst, _⟩
  · omega
  · simp only [firstCode] at hfirst
    omega

/-- Settles O49. -/
theorem emittedCodesFitTheirWidth : Obligations.EmittedCodesFitTheirWidth := by
  intro s hinv hactive
  have h := hinv.activeConfigured hactive
  have hw := h.widthsHold hinv.accWithin
  have hthree : 3 ≤ s.cw.toNat := Nat.le_trans (Nat.succ_le_succ hw.mcsLow) hw.cwLow
  exact ⟨fun hpv => ⟨hw.curFits hpv, h.cur_ne_control hpv⟩, h.clrFits, h.eoiFits, hthree, h.cwHigh, h.cw_eq_bits⟩

end Sys2Proof.Machine
end

section
/-! The invariant is kept by every command (10_state.md R37 to R42). -/

namespace Sys2Proof.Machine

open Sys2Proof.Reference

/-- 10_state.md R44: the reset registers, whatever the environment holds. -/
theorem inv_reset (out : List OutByte) (events : List Event) :
    Inv { State.reset with out := out, input := events } where
  dictWf := Memory.wf_nil
  accWithin := Nat.one_pos
  errcExactlyInErr := by simp [State.reset]
  begunOrNot := .inl ⟨rfl, rfl, rfl, rfl, rfl, rfl, rfl, rfl, rfl⟩
  activeConfigured := nofun
  idleEmpty := fun _ => ⟨rfl, rfl, rfl⟩

/-- A fault touches none of the registers and words of a begun frame (60_exceptions.md R157). -/
theorem Configured.raiseFault {s : State} (h : Configured s) (c : ErrCode) : Configured (raiseFault c s) :=
  h.congr rfl rfl rfl rfl rfl h.curIsEntry

theorem Unconfigured.raiseFault {s : State} (h : Unconfigured s) (c : ErrCode) : Unconfigured (raiseFault c s) :=
  ⟨h.cts, h.mcs, h.cw, h.next, h.cur, h.pv, h.acc, h.nb, h.dict⟩

/-- 60_exceptions.md R157: taking a fault keeps the invariant. -/
theorem Inv.raiseFault {s : State} (h : Inv s) {c : ErrCode} (hc : c ≠ .noFault) : Inv (raiseFault c s) where
  dictWf := h.dictWf
  accWithin := h.accWithin
  errcExactlyInErr := ⟨fun _ => rfl, fun _ => hc⟩
  begunOrNot := h.begunOrNot.imp (·.raiseFault c) (·.raiseFault c)
  activeConfigured := nofun
  idleEmpty := nofun

/-- A reserved command keeps the invariant. -/
theorem Inv.takeIllegal {s : State} (h : Inv s) : Inv (takeIllegal s) := by
  by_cases herr : s.st = .err
  · rwa [takeIllegal_err herr]
  · rw [takeIllegal_of_ne herr]
    exact h.raiseFault nofun

/-- A state with an open frame meets the invariant by its memory's form, its pending bits, its fault code and its frame. -/
theorem inv_of_active {s : State} (hst : s.st = .active) (hdict : s.dict.wf) (hacc : s.acc.toNat < 2 ^ s.nb.toNat)
    (herrc : s.errc = .noFault) (h : Configured s) : Inv s where
  dictWf := hdict
  accWithin := hacc
  errcExactlyInErr := by simp [herrc, hst]
  begunOrNot := .inr h
  activeConfigured := fun _ => h
  idleEmpty := by simp [hst]

/-- 10_state.md R30: outside `ERR` there is no fault code. -/
theorem Inv.errc_eq_noFault {s : State} (h : Inv s) (hst : s.st ≠ .err) : s.errc = .noFault :=
  Decidable.not_not.1 fun herrc => hst (h.errcExactlyInErr.1 herrc)

/-! `START` and the clear set up the same initial table. -/

/-- The initial table holds no phrase code, so 10_state.md R41 asks nothing of its words. -/
theorem configured_of_initialTable {s : State} (hcts : IsTableSize s.cts) (hmcs : s.mcs.toNat = minCodeSize s.cts)
    (hcw : s.cw.toNat = s.mcs.toNat + 1) (hnext : s.next.toNat = firstCode s.mcs)
    (hcur : s.pv = true → s.cur.toNat < s.cts.toNat) : Configured s := by
  obtain ⟨n, hn1, hn8, hn⟩ := hcts
  rw [minCodeSize_of_two_pow hn] at hmcs
  have hlow : 2 ^ 2 ≤ 2 ^ s.mcs.toNat := Nat.pow_le_pow_right (by omega) (by omega)
  have hhigh : 2 ^ s.mcs.toNat ≤ 2 ^ 8 := Nat.pow_le_pow_right (by omega) (by omega)
  have hnext' : s.next.toNat = 2 ^ s.mcs.toNat + 2 := hnext
  exact {
    ctsLegal := ⟨n, hn1, hn8, hn⟩
    mcsOfCts := by rw [hmcs, hn, Nat.log2_two_pow]
    cwLow := hcw.ge
    cwHigh := by omega
    nextLow := hnext.ge
    nextHigh := by omega
    nextAboveHalf := by rw [hcw, Nat.add_sub_cancel]; omega
    nextWithin := by rw [hcw, pow_succ]; omega
    curIsEntry := fun hpv => .inl (hcur hpv)
    wordsValid := fun c hc hfirst => by omega
    pairsDistinct := fun d hd c hcd hfirst => by omega }

/-- A legal size's code size and the registers `START` computes from it fit their widths (40_frame_control.md R100). -/
theorem configured_openFrame {cts : Arg} (h : IsTableSize cts) (s : State) : Configured (openFrame cts s) := by
  have ⟨n, hn1, hn8, hn⟩ := h
  have hm := minCodeSize_of_two_pow hn
  have hpow : 2 ^ minCodeSize cts ≤ 2 ^ 8 := Nat.pow_le_pow_right (by omega) (by omega)
  have hmcs : (openFrame cts s).mcs.toNat = minCodeSize cts := by
    simp only [openFrame_mcs, BitVec.toNat_ofNat]
    omega
  refine configured_of_initialTable h hmcs ?_ ?_ nofun
  · simp only [hmcs, openFrame_cw, BitVec.toNat_ofNat]
    omega
  · simp only [firstCode, hmcs, openFrame_next, BitVec.toNat_ofNat]
    exact Nat.mod_eq_of_lt (by omega)

/-- `EMIT` touches the packer and `OUT` only. -/
theorem Configured.emit {s : State} (h : Configured s) (code w : Nat) : Configured (emit code w s) :=
  h.congr rfl rfl rfl rfl rfl h.curIsEntry

/-- `START` with a legal size in `IDLE` keeps the invariant. -/
theorem Inv.beginFrame {s : State} (h : Inv s) (hidle : s.st = .idle) {cts : Arg} (hcts : IsTableSize cts) :
    Inv (beginFrame cts s) := by
  have hopen := configured_openFrame hcts s
  exact inv_of_active rfl h.dictWf (emit_accWithin hopen.clrFits Nat.one_pos)
    (h.errc_eq_noFault (by simp [hidle])) (hopen.emit _ _)

/-! `END` and the first two branches of `SYM`. -/

/-- The remaining phrase's code fits, so `ACC < 2^NB` outlasts its emission. -/
theorem Inv.emitRemaining_accWithin {s : State} (h : Inv s) (hactive : s.st = .active) :
    (emitRemaining s).acc.toNat < 2 ^ (emitRemaining s).nb.toNat := by
  unfold emitRemaining
  split
  · next hpv =>
    exact emit_accWithin (((h.activeConfigured hactive).widthsHold h.accWithin).curFits hpv) h.accWithin
  · exact h.accWithin

/-- Every code of `END` fits the width, so its flush leaves the packer empty (40_frame_control.md R103). -/
theorem Inv.finishFrame_packer {s : State} (h : Inv s) (hactive : s.st = .active) :
    (finishFrame s).acc = 0 ∧ (finishFrame s).nb = 0 := by
  have heoi : eoiCode (emitRemaining s).mcs < 2 ^ (emitRemaining s).cw.toNat := by
    simpa using (h.activeConfigured hactive).eoiFits
  exact flush_empties s.out.length (emit_accWithin heoi (h.emitRemaining_accWithin hactive))

/-- `END` in a frame keeps the invariant. -/
theorem Inv.finishFrame {s : State} (h : Inv s) (hactive : s.st = .active) : Inv (finishFrame s) := by
  obtain ⟨hacc, hnb⟩ := h.finishFrame_packer hactive
  have herrc := h.errc_eq_noFault (by simp [hactive])
  have hconf : Configured (Machine.finishFrame s) :=
    (h.activeConfigured hactive).congr (finishFrame_cts s) (finishFrame_mcs s) (finishFrame_cw s)
      (finishFrame_next s) (finishFrame_dict s) nofun
  exact {
    dictWf := by rw [finishFrame_dict]; exact h.dictWf
    accWithin := by simp [hacc, hnb]
    errcExactlyInErr := by simp [herrc]
    begunOrNot := .inr hconf
    activeConfigured := fun _ => hconf
    idleEmpty := fun _ => ⟨rfl, hacc, hnb⟩ }

/-- 41_symbol.md R121: the first index of a frame is a literal code. -/
theorem Inv.firstIndex {s : State} (h : Inv s) (hactive : s.st = .active) {k : Arg} (hk : k.toNat < s.cts.toNat) :
    Inv (firstIndex k s) :=
  inv_of_active hactive h.dictWf h.accWithin (h.errc_eq_noFault (by simp [hactive]))
    ((h.activeConfigured hactive).congr rfl rfl rfl rfl rfl fun _ => .inl (by simpa [literalCode_toNat] using hk))

/-- 41_symbol.md R122: the code a lookup finds is a phrase code of the table. -/
theorem Inv.adoptMatch {s : State} (h : Inv s) (hactive : s.st = .active) {p : Code} {k c : Nat}
    (hc : dictLookup p k s = some c) : Inv (adoptMatch c s) := by
  have hconf := h.activeConfigured hactive
  obtain ⟨hfirst, hnext, -⟩ := holdsPairAt_of_dictLookup h.dictWf hc
  have hcur : (Machine.adoptMatch c s).cur.toNat = c := by
    have := hconf.nextHigh
    simp only [adoptMatch_cur, BitVec.toNat_ofNat]
    omega
  exact inv_of_active hactive h.dictWf h.accWithin (h.errc_eq_noFault (by simp [hactive]))
    (hconf.congr rfl rfl rfl rfl rfl fun _ => .inr (by rw [hcur]; exact ⟨hfirst, hnext⟩))

/-! The miss of `SYM`. -/

/-- 41_symbol.md R125: the growth test restores the bounds of 10_state.md R38 and R39 for the next code. -/
theorem width_bounds_after_growth {cw cw' next : Nat} (hcw : cw ≤ 12) (habove : 2 ^ (cw - 1) < next)
    (hwithin : next ≤ 2 ^ cw) (hnext : next < 4095) (hcw' : cw' = if next = 2 ^ cw then cw + 1 else cw) :
    cw ≤ cw' ∧ cw' ≤ 12 ∧ 2 ^ (cw' - 1) < next + 1 ∧ next + 1 ≤ 2 ^ cw' := by
  split at hcw'
  · next hgrow =>
    have hne : cw ≠ 12 := by
      rintro rfl
      omega
    have hpos : 0 < next := Nat.zero_lt_of_lt habove
    have hdouble : 2 ^ (cw + 1) = 2 * 2 ^ cw := pow_succ' 2 cw
    subst hcw'
    rw [Nat.add_sub_cancel]
    omega
  · next hkeep =>
    subst hcw'
    exact ⟨le_rfl, hcw, Nat.lt_succ_of_lt habove, Nat.lt_of_le_of_ne hwithin hkeep⟩

/-- 10_state.md R41 after a store at `NEXT`: the new word's `pfx` is a code of the table as it was. -/
theorem Configured.wordsValid_write {s : State} (h : Configured s) {w : DictWord}
    (hpfx : w.pfx.toNat < s.cts.toNat ∨ (firstCode s.mcs ≤ w.pfx.toNat ∧ w.pfx.toNat < s.next.toNat))
    (hsym : w.sym.toNat < s.cts.toNat) (c : Nat) (hc : c < s.next.toNat + 1) (hfirst : firstCode s.mcs ≤ c) :
    ∃ v, (s.dict.write s.next.toNat w).read c = some v ∧
      (v.pfx.toNat < s.cts.toNat ∨ (firstCode s.mcs ≤ v.pfx.toNat ∧ v.pfx.toNat < c)) ∧
      v.sym.toNat < s.cts.toNat := by
  obtain rfl | hold := Nat.eq_or_lt_of_le (Nat.le_of_lt_succ hc)
  · exact ⟨w, Memory.read_write_same .., hpfx, hsym⟩
  · rw [Memory.read_write_other _ _ hold.ne]
    exact h.wordsValid c hold hfirst

/-- 10_state.md R41 after a store at `NEXT`: a pair that no valid word held is new. -/
theorem Configured.pairsDistinct_write {s : State} (h : Configured s) {w : DictWord}
    (hmiss : ∀ c, ¬ HoldsPairAt s w.pfx w.sym.toNat c) (d : Nat) (hd : d < s.next.toNat + 1) (c : Nat) (hc : c < d)
    (hfirst : firstCode s.mcs ≤ c) :
    (s.dict.write s.next.toNat w).read c ≠ (s.dict.write s.next.toNat w).read d := by
  have hold : c < s.next.toNat := by omega
  rw [Memory.read_write_other _ _ hold.ne]
  obtain rfl | hdold := Nat.eq_or_lt_of_le (Nat.le_of_lt_succ hd)
  · rw [Memory.read_write_same]
    exact fun heq => hmiss c ⟨hfirst, hold, w, heq, rfl, rfl⟩
  · rw [Memory.read_write_other _ _ hdold.ne]
    exact h.pairsDistinct d hdold c hc hfirst

/-- 41_symbol.md R123 to R125: a miss that leaves room adds its entry to the table and grows the width. -/
theorem Configured.missIndex_of_not_full {s : State} (h : Configured s) (hwidths : WidthsHold s) (hpv : s.pv = true)
    {k : Arg} (hk : k.toNat < s.cts.toNat) (hmiss : ∀ c, ¬ HoldsPairAt s s.cur k.toNat c)
    (hnext : s.next.toNat < 4095) : Configured (missIndex k s) := by
  obtain ⟨-, -, -, -, -, -, hcur, -, hgrown, -⟩ := missIndex_fields k hwidths hpv
  obtain ⟨-, hnext', hcw'⟩ := hgrown hnext
  obtain ⟨hcwle, hcw12, habove, hwithin⟩ :=
    width_bounds_after_growth h.cwHigh h.nextAboveHalf h.nextWithin hnext hcw'
  have hlow := h.nextLow
  have hsym : (symField k).toNat = k.toNat := symField_toNat <| by
    obtain ⟨_, _, _, hcts, _, hle, _, hhigh, _⟩ := h.pows
    omega
  exact {
    ctsLegal := by simpa using h.ctsLegal
    mcsOfCts := by simpa using h.mcsOfCts
    cwLow := by simpa using Nat.le_trans h.cwLow hcwle
    cwHigh := hcw12
    nextLow := by rw [missIndex_mcs, hnext']; omega
    nextHigh := by omega
    nextAboveHalf := by rwa [hnext']
    nextWithin := by rwa [hnext']
    curIsEntry := fun _ => .inl (by rwa [hcur, missIndex_cts])
    wordsValid := by
      rw [hnext', missIndex_mcs, missIndex_cts, missIndex_dict]
      exact h.wordsValid_write (h.curIsEntry hpv) (by rwa [hsym])
    pairsDistinct := by
      rw [hnext', missIndex_mcs, missIndex_dict]
      exact h.pairsDistinct_write (by rwa [hsym]) }

/-- 41_symbol.md R126: the miss that gives the last code goes back to the initial table. -/
theorem Configured.missIndex_of_full {s : State} (h : Configured s) (hwidths : WidthsHold s) (hpv : s.pv = true)
    {k : Arg} (hk : k.toNat < s.cts.toNat) (hnext : s.next.toNat = 4095) : Configured (missIndex k s) := by
  obtain ⟨-, -, -, -, -, -, hcur, -, -, hcleared⟩ := missIndex_fields k hwidths hpv
  obtain ⟨-, -, -, hnext', hcw'⟩ := hcleared hnext
  refine configured_of_initialTable ?_ ?_ ?_ ?_ fun _ => ?_
  · rw [missIndex_cts]; exact h.ctsLegal
  · rw [missIndex_cts, missIndex_mcs]; exact h.mcsOfCts
  · rw [missIndex_mcs]; exact hcw'
  · rw [missIndex_mcs]; exact hnext'
  · rwa [hcur, missIndex_cts]

/-- The codes a miss emits, the phrase's and CLEAR, fit the width, so `ACC < 2^NB` outlasts them. -/
theorem Configured.missIndex_accWithin {s : State} (h : Configured s) (hwidths : WidthsHold s) (hpv : s.pv = true)
    (k : Arg) : (missIndex k s).acc.toNat < 2 ^ (missIndex k s).nb.toNat := by
  obtain ⟨-, -, -, -, -, -, -, -, hgrown, hcleared⟩ := missIndex_fields k hwidths hpv
  have hcur := hwidths.curFits hpv
  obtain hnext | hnext := Nat.lt_or_eq_of_le h.nextHigh
  · exact (hgrown hnext).1.accWithin hwidths.accWithin (by simpa using hcur)
  · obtain ⟨hcw, -, hemitted, -⟩ := hcleared hnext
    have hclr := h.clrFits
    rw [hcw] at hcur hclr
    exact hemitted.accWithin hwidths.accWithin (by simp only [List.forall_mem_cons]; exact ⟨hcur, hclr, nofun⟩)

/-- 41_symbol.md R123 to R127: a miss keeps the invariant. -/
theorem Inv.missIndex {s : State} (h : Inv s) (hactive : s.st = .active) (hpv : s.pv = true) {k : Arg}
    (hk : k.toNat < s.cts.toNat) (hnone : dictLookup s.cur k.toNat s = none) : Inv (missIndex k s) := by
  have hconf := h.activeConfigured hactive
  have hwidths := hconf.widthsHold h.accWithin
  have hdict : (Machine.missIndex k s).dict.wf := by
    rw [missIndex_dict]
    exact Memory.wf_write h.dictWf (Nat.lt_succ_of_le hconf.nextHigh) _
  refine inv_of_active (by simpa using hactive) hdict (hconf.missIndex_accWithin hwidths hpv k) ?_ ?_
  · simpa using h.errc_eq_noFault (by simp [hactive])
  · obtain hnext | hnext := Nat.lt_or_eq_of_le hconf.nextHigh
    · exact hconf.missIndex_of_not_full hwidths hpv hk (not_holdsPairAt_of_dictLookup_none h.dictWf hnone) hnext
    · exact hconf.missIndex_of_full hwidths hpv hk hnext

/-! Every command, every step. -/

theorem Inv.execStart {cts : Arg} {s t : State} (h : Inv s) (hexec : execStart cts s = .next t) : Inv t := by
  obtain ⟨-, rfl⟩ | ⟨-, rfl⟩ | ⟨hidle, hcts, rfl⟩ | ⟨-, -, rfl⟩ := execStart_cases hexec
  · exact h
  · exact h.raiseFault nofun
  · exact h.beginFrame hidle hcts
  · exact h.raiseFault nofun

theorem Inv.execSym {k : Arg} {s t : State} (h : Inv s) (hexec : execSym k s = .next t) : Inv t := by
  obtain ⟨-, rfl⟩ | ⟨-, rfl⟩ | ⟨-, -, rfl⟩ | ⟨hactive, hk, -, rfl⟩ | ⟨hactive, -, -, c, hc, rfl⟩ |
    ⟨hactive, hk, hpv, hnone, -, rfl⟩ := execSym_cases hexec
  · exact h
  · exact h.raiseFault nofun
  · exact h.raiseFault nofun
  · exact h.firstIndex hactive hk
  · exact h.adoptMatch hactive hc
  · exact h.missIndex hactive hpv hk hnone

theorem Inv.execEnd {s t : State} (h : Inv s) (hexec : execEnd s = .next t) : Inv t := by
  obtain ⟨-, rfl⟩ | ⟨-, rfl⟩ | ⟨hactive, rfl⟩ := execEnd_cases hexec
  · exact h
  · exact h.raiseFault nofun
  · exact h.finishFrame hactive

theorem Inv.exec {i : Instr} {s t : State} (h : Inv s) (hexec : exec i s = .next t) : Inv t := by
  obtain ⟨cts, -, hstart⟩ | ⟨k, -, hsym⟩ | ⟨-, hend⟩ | ⟨-, rfl⟩ := exec_cases hexec
  · exact h.execStart hstart
  · exact h.execSym hsym
  · exact h.execEnd hend
  · exact h.takeIllegal

/-- Settles O46: waiting changes nothing, RESET gives the reset registers, and `Inv.exec` does the commands. -/
theorem stepKeepsTheInvariant : Obligations.StepKeepsTheInvariant := by
  intro s t h hstep
  obtain ⟨-, rfl⟩ | ⟨rest, -, rfl⟩ | ⟨w, rest, -, hexec⟩ := step_cases hstep
  · exact h
  · exact inv_reset s.out rest
  · exact (h.withInput rest).exec hexec

/-- Settles O45. -/
theorem resetSatisfiesTheInvariant : Obligations.ResetSatisfiesTheInvariant :=
  fun events => inv_reset [] events

end Sys2Proof.Machine
end

section
/-! What the commands leave alone, when the machine stops, and the runs from reset. -/

namespace Sys2Proof.Machine

/-! `CTS` and `MCS` (10_state.md R21, R22). -/

theorem takeIllegal_configuration (s : State) : (takeIllegal s).cts = s.cts ∧ (takeIllegal s).mcs = s.mcs := by
  by_cases herr : s.st = .err
  · simp [takeIllegal_err herr]
  · simp [takeIllegal_of_ne herr]

theorem execStart_configuration {cts : Arg} {s t : State} (h : execStart cts s = .next t) :
    (t.cts = s.cts ∧ t.mcs = s.mcs) ∨ (s.st = .idle ∧ IsTableSize cts) := by
  obtain ⟨-, rfl⟩ | ⟨-, rfl⟩ | ⟨hidle, hcts, -⟩ | ⟨-, -, rfl⟩ := execStart_cases h
  · exact .inl ⟨rfl, rfl⟩
  · exact .inl ⟨rfl, rfl⟩
  · exact .inr ⟨hidle, hcts⟩
  · exact .inl ⟨rfl, rfl⟩

theorem execSym_configuration {k : Arg} {s t : State} (h : execSym k s = .next t) :
    t.cts = s.cts ∧ t.mcs = s.mcs := by
  obtain ⟨-, rfl⟩ | ⟨-, rfl⟩ | ⟨-, -, rfl⟩ | ⟨-, -, -, rfl⟩ | ⟨-, -, -, c, -, rfl⟩ | ⟨-, -, -, -, -, rfl⟩ :=
    execSym_cases h <;> simp

theorem execEnd_configuration {s t : State} (h : execEnd s = .next t) : t.cts = s.cts ∧ t.mcs = s.mcs := by
  obtain ⟨-, rfl⟩ | ⟨-, rfl⟩ | ⟨-, rfl⟩ := execEnd_cases h <;> simp

/-- 10_state.md R21, R22: of the commands only a `START` that opens a frame writes `CTS` and `MCS`. -/
theorem exec_configuration {i : Instr} {s t : State} (h : exec i s = .next t) :
    (t.cts = s.cts ∧ t.mcs = s.mcs) ∨ ∃ cts, i = .start cts ∧ s.st = .idle ∧ IsTableSize cts := by
  obtain ⟨cts, rfl, hstart⟩ | ⟨k, -, hsym⟩ | ⟨-, hend⟩ | ⟨-, rfl⟩ := exec_cases h
  · exact (execStart_configuration hstart).imp_right fun hopens => ⟨cts, rfl, hopens⟩
  · exact .inl (execSym_configuration hsym)
  · exact .inl (execEnd_configuration hend)
  · exact .inl (takeIllegal_configuration s)

/-- Settles O41, by the event of the step. -/
theorem onlyStartAndResetWriteTheConfiguration : Obligations.OnlyStartAndResetWriteTheConfiguration := by
  intro s t hstep hchanged
  obtain ⟨-, rfl⟩ | ⟨rest, hinput, -⟩ | ⟨w, rest, hinput, hexec⟩ := step_cases hstep
  · simp at hchanged
  · exact .inl ⟨rest, hinput⟩
  · obtain ⟨hcts, hmcs⟩ | ⟨cts, hdecode, hidle, hsize⟩ := exec_configuration hexec
    · exact absurd hchanged (by simp [hcts, hmcs])
    · exact .inr ⟨w, rest, cts, hinput, hdecode, hidle, hsize⟩

/-! The stop (10_state.md R31; log entry 5). -/

/-- A `SYM` misses in a frame, and `NEXT` is the address of no word. -/
def MissesWithoutAWord (k : Arg) (s : State) : Prop :=
  s.st = .active ∧ k.toNat < s.cts.toNat ∧ s.pv = true ∧ dictLookup s.cur k.toNat s = none ∧ 4096 ≤ s.next.toNat

theorem execSym_of_missesWithoutAWord {k : Arg} {s : State} (h : MissesWithoutAWord k s) :
    execSym k s = .fault .noSuchDictWord := by
  obtain ⟨hactive, hk, hpv, hnone, hnext⟩ := h
  have hfull : ¬ s.next.toNat < Config.dictWords := Nat.not_lt.2 hnext
  simp [execSym, hactive, (indexIsLegal_iff k s.cts).2 hk, acceptIndex, hpv, hnone, execMiss, hfull]

/-- A `SYM` that does not miss at a full memory answers a next state. -/
theorem execSym_next_or_missesWithoutAWord (k : Arg) (s : State) :
    (∃ t, execSym k s = .next t) ∨ MissesWithoutAWord k s := by
  unfold execSym
  split
  · exact .inl ⟨_, rfl⟩
  · exact .inl ⟨_, rfl⟩
  · next hactive =>
    split
    · next hk =>
      unfold acceptIndex
      split
      · next hpv =>
        split
        · exact .inl ⟨_, rfl⟩
        · next hnone =>
          unfold execMiss
          split
          · exact .inl ⟨_, rfl⟩
          · next hnext =>
            exact .inr ⟨hactive, (indexIsLegal_iff k s.cts).1 hk, hpv, hnone, Nat.le_of_not_lt hnext⟩
      · exact .inl ⟨_, rfl⟩
    · exact .inl ⟨_, rfl⟩

theorem execStart_next (cts : Arg) (s : State) : ∃ t, execStart cts s = .next t := by
  unfold execStart
  split
  · exact ⟨_, rfl⟩
  · exact ⟨_, rfl⟩
  · split <;> exact ⟨_, rfl⟩

theorem execEnd_next (s : State) : ∃ t, execEnd s = .next t := by
  unfold execEnd
  split <;> exact ⟨_, rfl⟩

/-- The two outcomes of a command: a next state, or the one stop. -/
theorem exec_next_or_missesWithoutAWord (i : Instr) (s : State) :
    (∃ t, exec i s = .next t) ∨ ∃ k, i = .sym k ∧ MissesWithoutAWord k s := by
  cases i with
  | start cts => exact .inl (execStart_next cts s)
  | sym k => exact (execSym_next_or_missesWithoutAWord k s).imp_right fun hmiss => ⟨k, rfl, hmiss⟩
  | endCmd => exact .inl (execEnd_next s)
  | _ => exact .inl ⟨_, exec_reserved rfl s⟩

/-- Settles O48, from the two outcomes of a command. -/
theorem stopsOnlyWithoutAWordToStore : Obligations.StopsOnlyWithoutAWordToStore := by
  intro i s
  obtain ⟨t, hnext⟩ | ⟨k, rfl, hmiss⟩ := exec_next_or_missesWithoutAWord i s
  · refine ⟨fun r => by simp [hnext], fun ⟨r, hfault⟩ => by simp [hnext] at hfault, ?_⟩
    rintro ⟨k, rfl, hmiss⟩
    exact ⟨_, execSym_of_missesWithoutAWord hmiss⟩
  · have hfault : exec (.sym k) s = .fault .noSuchDictWord := execSym_of_missesWithoutAWord hmiss
    exact ⟨fun r => by simp [hfault], fun _ => ⟨k, rfl, hmiss⟩, fun _ => ⟨_, hfault⟩⟩

/-! Runs from reset. -/

/-- 10_state.md R39: in a state of the invariant `NEXT` is the address of a word, so no command stops. -/
theorem Inv.exec_next {s : State} (h : Inv s) (i : Instr) : ∃ t, Machine.exec i s = .next t := by
  refine (exec_next_or_missesWithoutAWord i s).resolve_right ?_
  rintro ⟨k, -, hactive, -, -, -, hnext⟩
  have := (h.activeConfigured hactive).nextHigh
  omega

/-- 60_exceptions.md R163, R166: whatever event is next, or none, the machine has a next state. -/
theorem Inv.step_next {s : State} (h : Inv s) : ∃ t, step s = .next t := by
  rcases hinput : s.input with _ | ⟨w | _, rest⟩
  · exact ⟨s, by simp [step, takeEvent, hinput]⟩
  · rw [step_cmd hinput]
    exact (h.withInput rest).exec_next _
  · exact ⟨_, step_reset hinput⟩

/-- The invariant along a run: it holds at reset and every step keeps it. -/
theorem Reachable.inv {s : State} (h : Reachable s) : Inv s := by
  induction h with
  | afterReset events => exact resetSatisfiesTheInvariant events
  | next _ hstep ih => exact stepKeepsTheInvariant _ _ ih hstep

/-- Settles O47. -/
theorem reachableStatesNeverStop : Obligations.ReachableStatesNeverStop :=
  fun _ h => ⟨h.inv, h.inv.step_next⟩

/-- Settles O8, whatever the state before. -/
theorem resetSetsEveryRegister : Obligations.ResetSetsEveryRegister :=
  fun _ _ hinput => ⟨_, step_reset hinput, rfl, rfl, rfl, rfl, rfl, rfl, rfl, rfl, rfl, rfl⟩

end Sys2Proof.Machine
end

section
/-! The code table is a map from phrases to codes (10_state.md R35). -/

namespace Sys2Proof.Reference

open Sys2Proof.Machine

/-- A literal code's phrase has one index, a phrase code's at least two. -/
theorem phrase_literal_ne_word {s : State} (h : Configured s) {c d : Nat} (hc : c < 2 ^ s.mcs.toNat)
    (hfirst : firstCode s.mcs ≤ d) (hd : d < s.next.toNat) : phrase s c ≠ phrase s d := by
  obtain ⟨w, -, hpfx, -, hphrase⟩ := phrase_word h hfirst hd
  have hne := List.length_pos_iff.2 (phrase_ne_nil h hpfx)
  intro heq
  have hlen := congrArg List.length heq
  simp only [phrase_literal hc, hphrase, List.length_append, List.length_cons, List.length_nil] at hlen
  omega

/-- 10_state.md R41: two valid words with the same content are the same word. -/
theorem code_eq_of_read_eq {s : State} (h : Configured s) {c d : Nat} (hc : firstCode s.mcs ≤ c) (hcn : c < s.next.toNat)
    (hd : firstCode s.mcs ≤ d) (hdn : d < s.next.toNat) (heq : s.dict.read c = s.dict.read d) : c = d := by
  obtain hlt | rfl | hgt := Nat.lt_trichotomy c d
  · exact absurd heq (h.pairsDistinct d hdn c hlt hc)
  · rfl
  · exact absurd heq.symm (h.pairsDistinct c hcn d hgt hd)

/-- 10_state.md R35, R36: a phrase determines its code. The last index and the shorter phrase determine the pair of the
word, and so, by induction on the code, the word. -/
theorem phrase_injective {s : State} (h : Configured s) (c : Nat) :
    ∀ d, IsPhraseCode s c → IsPhraseCode s d → phrase s c = phrase s d → c = d := by
  induction c using Nat.strong_induction_on with
  | _ c ih =>
    rintro d (hc | ⟨hc, hcn⟩) (hd | ⟨hd, hdn⟩) heq
    · simpa [phrase_literal hc, phrase_literal hd] using heq
    · exact absurd heq (phrase_literal_ne_word h hc hd hdn)
    · exact absurd heq.symm (phrase_literal_ne_word h hd hc hcn)
    · obtain ⟨v, hv, hvpfx, hvlt, hvphrase⟩ := phrase_word h hc hcn
      obtain ⟨w, hw, hwpfx, -, hwphrase⟩ := phrase_word h hd hdn
      rw [hvphrase, hwphrase] at heq
      obtain ⟨hshort, hlast⟩ := List.append_inj' heq rfl
      have hpfx : v.pfx = w.pfx := BitVec.eq_of_toNat_eq (ih _ hvlt _ hvpfx hwpfx hshort)
      have hsym : v.sym = w.sym := BitVec.eq_of_toNat_eq (by simpa using hlast)
      have hvw : v = w := congrArg₂ DictWord.mk hpfx hsym
      exact code_eq_of_read_eq h hc hcn hd hdn (by rw [hv, hw, hvw])

/-- Settles O50. -/
theorem codesStandForDistinctPhrases : Obligations.CodesStandForDistinctPhrases :=
  fun _ c d hinv hactive => phrase_injective (hinv.activeConfigured hactive) c d

/-- 10_state.md R40: the current code is a code of the table. -/
theorem isPhraseCode_cur {s : State} (h : Configured s) (hpv : s.pv = true) : IsPhraseCode s s.cur.toNat :=
  (h.curIsEntry hpv).imp_left fun hlit => Nat.lt_of_lt_of_le hlit h.ctsWithin

/-- 10_state.md R35: a code stands for an entry's phrase extended by `k` exactly when its word holds the pair. -/
theorem holdsPairAt_iff_phrase {s : State} (h : Configured s) {p : Code} (hp : IsPhraseCode s p.toNat) (k c : Nat) :
    HoldsPairAt s p k c ↔ IsPhraseCode s c ∧ phrase s c = phrase s p.toNat ++ [k] := by
  constructor
  · rintro ⟨hfirst, hnext, w, hw, rfl, rfl⟩
    obtain ⟨v, hv, -, -, hphrase⟩ := phrase_word h hfirst hnext
    obtain rfl : v = w := Option.some.inj (hv.symm.trans hw)
    exact ⟨.inr ⟨hfirst, hnext⟩, hphrase⟩
  · rintro ⟨hlit | ⟨hfirst, hnext⟩, hphrase⟩
    · rw [phrase_literal hlit] at hphrase
      exact absurd (List.append_eq_singleton_iff.1 hphrase.symm) (by simp [phrase_ne_nil h hp])
    · obtain ⟨w, hw, hpfx, -, hwphrase⟩ := phrase_word h hfirst hnext
      obtain ⟨hshort, hlast⟩ := List.append_inj' (hwphrase.symm.trans hphrase) rfl
      exact ⟨hfirst, hnext, w, hw, BitVec.eq_of_toNat_eq (phrase_injective h _ _ hpfx hp hshort), by simpa using hlast⟩

/-- 20_memory.md R53: a lookup finds something exactly where a valid word holds the pair. -/
theorem dictLookup_ne_none_iff {s : State} (h : s.dict.wf) (p : Code) (k : Nat) :
    dictLookup p k s ≠ none ↔ ∃ c, HoldsPairAt s p k c := by
  constructor
  · intro hfound
    obtain ⟨c, hc⟩ := Option.ne_none_iff_exists'.1 hfound
    exact ⟨c, holdsPairAt_of_dictLookup h hc⟩
  · rintro ⟨c, hc⟩ hnone
    exact not_holdsPairAt_of_dictLookup_none h hnone c hc

/-- Settles O51: the lookup is the search for a word with the pair, which is the search for a code with the phrase. -/
theorem lookupIsMembershipOfThePhrase : Obligations.LookupIsMembershipOfThePhrase := by
  intro s k hinv hactive hpv _
  have h := hinv.activeConfigured hactive
  rw [dictLookup_ne_none_iff hinv.dictWf, currentPhrase, if_pos hpv]
  exact exists_congr fun c => holdsPairAt_iff_phrase h (isPhraseCode_cur h hpv) k.toNat c

end Sys2Proof.Reference
end

section
/-! The dictionary memory: reads after writes, the canonical form, the lookup (20_memory.md R51 to R54). -/

namespace Sys2Proof.Machine

open Sys2Proof.Reference

/-- Settles O36. -/
theorem dictReadAfterWrite : Obligations.DictReadAfterWrite := by
  intro m c c' w
  split
  · next heq => rw [heq, Memory.read_write_same]
  · next hne => exact Memory.read_write_other m w hne

/-- The entries of a memory in canonical form are its reads, and their order is that of the addresses. -/
theorem Memory.eq_of_read_eq {m m' : Memory} (h : m.wf) (h' : m'.wf) (hread : ∀ c, m.read c = m'.read c) : m = m' := by
  have hmem : ∀ e, e ∈ m ↔ e ∈ m' := fun (c, w) => by
    rw [← Memory.read_eq_some_iff h.1, ← Memory.read_eq_some_iff h'.1, hread]
  have hasymm : Std.Asymm fun a b : Nat × DictWord => a.1 < b.1 := ⟨fun _ _ => Nat.lt_asymm⟩
  exact h.1.eq_of_mem_iff h'.1 hmem

/-- Settles O37. -/
theorem dictFormIsCanonical : Obligations.DictFormIsCanonical :=
  ⟨fun _ _ w hwf hc => Memory.wf_write hwf hc w, fun _ _ => Memory.eq_of_read_eq⟩

/-- 10_state.md R41: before the first frame no code is valid, and in a begun one two codes of a pair have one word. -/
theorem Inv.holdsPairAt_unique {s : State} (h : Inv s) {p : Code} {k c d : Nat} (hc : HoldsPairAt s p k c)
    (hd : HoldsPairAt s p k d) : c = d := by
  obtain ⟨hcfirst, hcnext, v, hv, hvpfx, hvsym⟩ := hc
  obtain ⟨hdfirst, hdnext, w, hw, hwpfx, hwsym⟩ := hd
  obtain hnone | hconf := h.begunOrNot
  · simp [hnone.next] at hcnext
  · have hvw : v = w :=
      congrArg₂ DictWord.mk (hvpfx.trans hwpfx.symm) (BitVec.eq_of_toNat_eq (hvsym.trans hwsym.symm))
    exact code_eq_of_read_eq hconf hcfirst hcnext hdfirst hdnext (by rw [hv, hw, hvw])

/-- Settles O38: a lookup finds some code of the pair, which is the only one. -/
theorem lookupFindsTheOneCode : Obligations.LookupFindsTheOneCode := by
  intro s p k hinv
  have hnone : dictLookup p k s = none ↔ ∀ c, ¬ HoldsPairAt s p k c := by
    rw [← not_exists, ← dictLookup_ne_none_iff hinv.dictWf, not_not]
  refine ⟨fun c => ⟨holdsPairAt_of_dictLookup hinv.dictWf, fun hc => ?_⟩, hnone, fun c d => hinv.holdsPairAt_unique⟩
  obtain ⟨d, hd⟩ := Option.ne_none_iff_exists'.1 ((dictLookup_ne_none_iff hinv.dictWf p k).2 ⟨c, hc⟩)
  rw [hd, hinv.holdsPairAt_unique hc (holdsPairAt_of_dictLookup hinv.dictWf hd)]

end Sys2Proof.Machine
end

section
/-! A command reads none of the events to come (20_memory.md R65). -/

namespace Sys2Proof.Machine

/-- Settles O6. -/
theorem stepRunsTheDecodedCommand : Obligations.StepRunsTheDecodedCommand := by
  rintro s w rest i hinput rfl
  exact step_cmd hinput

/-- `s` with other events to come (log entry 1). -/
def State.withInput (s : State) (later : List Event) : State := { s with input := later }

/-- An outcome with its next state changed by `f`; a stop stays as it is. -/
def mapNext (f : State → State) : Host.Outcome State Fault Refusal → Host.Outcome State Fault Refusal
  | .next t => .next (f t)
  | .fault r => .fault r
  | .refused r => .refused r

/-! The state's operations, which carry the events along. -/

section
variable (s : State) (later : List Event)

@[simp] theorem State.withInput_cts : (s.withInput later).cts = s.cts := rfl
@[simp] theorem State.withInput_next : (s.withInput later).next = s.next := rfl
@[simp] theorem State.withInput_cur : (s.withInput later).cur = s.cur := rfl
@[simp] theorem State.withInput_pv : (s.withInput later).pv = s.pv := rfl
@[simp] theorem State.withInput_st : (s.withInput later).st = s.st := rfl

@[simp] theorem raiseFault_withInput (c : ErrCode) :
    raiseFault c (s.withInput later) = (raiseFault c s).withInput later := rfl

@[simp] theorem dictLookup_withInput (p : Code) (k : Nat) : dictLookup p k (s.withInput later) = dictLookup p k s := rfl

theorem emit_withInput (code w : Nat) : emit code w (s.withInput later) = (emit code w s).withInput later := rfl

theorem addEntry_withInput (k : Arg) : addEntry k (s.withInput later) = (addEntry k s).withInput later := rfl

@[simp] theorem beginFrame_withInput (cts : Arg) :
    beginFrame cts (s.withInput later) = (beginFrame cts s).withInput later := rfl

@[simp] theorem firstIndex_withInput (k : Arg) :
    firstIndex k (s.withInput later) = (firstIndex k s).withInput later := rfl

@[simp] theorem adoptMatch_withInput (c : Nat) :
    adoptMatch c (s.withInput later) = (adoptMatch c s).withInput later := rfl

theorem emitRemaining_withInput : emitRemaining (s.withInput later) = (emitRemaining s).withInput later := by
  unfold emitRemaining
  rw [apply_ite (State.withInput · later)]
  rfl

theorem flush_withInput (before : Nat) : flush before (s.withInput later) = (flush before s).withInput later := by
  unfold flush
  rw [apply_ite (State.withInput · later)]
  rfl

theorem growWidth_withInput (n : Nat) : growWidth n (s.withInput later) = (growWidth n s).withInput later := by
  unfold growWidth
  rw [apply_ite (State.withInput · later)]
  rfl

theorem clearIfFull_withInput : clearIfFull (s.withInput later) = (clearIfFull s).withInput later := by
  unfold clearIfFull
  rw [apply_ite (State.withInput · later)]
  rfl

@[simp] theorem finishFrame_withInput : finishFrame (s.withInput later) = (finishFrame s).withInput later := by
  unfold finishFrame
  rw [emitRemaining_withInput]
  dsimp only
  rw [emit_withInput, flush_withInput]
  rfl

@[simp] theorem missIndex_withInput (k : Arg) : missIndex k (s.withInput later) = (missIndex k s).withInput later := by
  unfold missIndex
  dsimp only
  rw [emit_withInput, addEntry_withInput, growWidth_withInput, clearIfFull_withInput]
  rfl

@[simp] theorem takeIllegal_withInput : takeIllegal (s.withInput later) = (takeIllegal s).withInput later := by
  by_cases herr : s.st = .err
  · rw [takeIllegal_err herr, takeIllegal_err (by simpa using herr)]
  · rw [takeIllegal_of_ne herr, takeIllegal_of_ne (by simpa using herr), raiseFault_withInput]

end

/-! The commands. -/

theorem execStart_withInput (cts : Arg) (s : State) (later : List Event) :
    execStart cts (s.withInput later) = mapNext (·.withInput later) (execStart cts s) := by
  cases hst : s.st with
  | err => simp [execStart, hst, mapNext]
  | active => simp [execStart, hst, mapNext]
  | idle => by_cases hcts : ctsIsLegal cts = true <;> simp [execStart, hst, hcts, mapNext]

theorem execEnd_withInput (s : State) (later : List Event) :
    execEnd (s.withInput later) = mapNext (·.withInput later) (execEnd s) := by
  cases hst : s.st <;> simp [execEnd, hst, mapNext]

theorem execMiss_withInput (k : Arg) (s : State) (later : List Event) :
    execMiss k (s.withInput later) = mapNext (·.withInput later) (execMiss k s) := by
  by_cases hnext : s.next.toNat < Config.dictWords <;> simp [execMiss, hnext, mapNext]

theorem acceptIndex_withInput (k : Arg) (s : State) (later : List Event) :
    acceptIndex k (s.withInput later) = mapNext (·.withInput later) (acceptIndex k s) := by
  cases hpv : s.pv with
  | false => simp [acceptIndex, hpv, mapNext]
  | true =>
    cases hfound : dictLookup s.cur k.toNat s with
    | some c => simp [acceptIndex, hpv, hfound, mapNext]
    | none => simp [acceptIndex, hpv, hfound, execMiss_withInput]

theorem execSym_withInput (k : Arg) (s : State) (later : List Event) :
    execSym k (s.withInput later) = mapNext (·.withInput later) (execSym k s) := by
  cases hst : s.st with
  | err => simp [execSym, hst, mapNext]
  | idle => simp [execSym, hst, mapNext]
  | active =>
    by_cases hk : indexIsLegal k s.cts = true
    · simp [execSym, hst, hk, acceptIndex_withInput]
    · simp [execSym, hst, hk, mapNext]

/-- 20_memory.md R65: the events to come pass through a command untouched and change nothing else of its outcome. -/
theorem exec_withInput (i : Instr) (s : State) (later : List Event) :
    exec i (s.withInput later) = mapNext (·.withInput later) (exec i s) := by
  cases i with
  | start cts => exact execStart_withInput cts s later
  | sym k => exact execSym_withInput k s later
  | endCmd => exact execEnd_withInput s later
  | _ => rw [exec_reserved rfl, exec_reserved rfl, takeIllegal_withInput]; rfl

/-- Settles O7: `exec_withInput` for each kind of outcome. -/
theorem commandsDoNotLookAhead : Obligations.CommandsDoNotLookAhead := by
  intro i s later
  have hcomm := exec_withInput i s later
  refine ⟨fun t hnext => ?_, fun r hfault => ?_⟩
  · rw [hnext] at hcomm; exact hcomm
  · rw [hfault] at hcomm; exact hcomm

end Sys2Proof.Machine
end

section
/-! `OUT` is only ever extended (20_memory.md R56). -/

namespace Sys2Proof.Machine

theorem emit_out_prefix (code w : Nat) (s : State) : s.out <+: (emit code w s).out :=
  List.prefix_append ..

theorem emitRemaining_out_prefix (s : State) : s.out <+: (emitRemaining s).out := by
  unfold emitRemaining
  split
  · exact emit_out_prefix ..
  · exact List.prefix_rfl

theorem clearIfFull_out_prefix (s : State) : s.out <+: (clearIfFull s).out := by
  unfold clearIfFull
  split
  · exact emit_out_prefix ..
  · exact List.prefix_rfl

/-- 42_bit_packing.md R142: `FLUSH` marks no byte that stood in `OUT` when the step began. -/
theorem flush_out_prefix {old : List OutByte} {s : State} (h : old <+: s.out) : old <+: (flush old.length s).out := by
  unfold flush
  split
  · exact h.trans (List.prefix_append ..)
  · rw [← List.prefix_iff_eq_take.1 h]
    exact List.prefix_append ..

theorem beginFrame_out_prefix (cts : Arg) (s : State) : s.out <+: (beginFrame cts s).out :=
  emit_out_prefix _ _ (openFrame cts s)

theorem finishFrame_out_prefix (s : State) : s.out <+: (finishFrame s).out :=
  flush_out_prefix ((emitRemaining_out_prefix s).trans (emit_out_prefix ..))

/-- A miss emits the current phrase's code, and CLEAR after it where the table is full. -/
theorem missIndex_out_prefix (k : Arg) (s : State) : s.out <+: (missIndex k s).out := by
  refine (emit_out_prefix s.cur.toNat s.cw.toNat s).trans ?_
  simpa [missIndex] using clearIfFull_out_prefix (growWidth s.next.toNat (addEntry k (emit s.cur.toNat s.cw.toNat s)))

theorem takeIllegal_out (s : State) : (takeIllegal s).out = s.out := by
  by_cases herr : s.st = .err
  · rw [takeIllegal_err herr]
  · rw [takeIllegal_of_ne herr, raiseFault_out]

theorem execStart_out_prefix {cts : Arg} {s t : State} (h : execStart cts s = .next t) : s.out <+: t.out := by
  obtain ⟨-, rfl⟩ | ⟨-, rfl⟩ | ⟨-, -, rfl⟩ | ⟨-, -, rfl⟩ := execStart_cases h
  · exact List.prefix_rfl
  · exact List.prefix_rfl
  · exact beginFrame_out_prefix cts s
  · exact List.prefix_rfl

theorem execSym_out_prefix {k : Arg} {s t : State} (h : execSym k s = .next t) : s.out <+: t.out := by
  obtain ⟨-, rfl⟩ | ⟨-, rfl⟩ | ⟨-, -, rfl⟩ | ⟨-, -, -, rfl⟩ | ⟨-, -, -, c, -, rfl⟩ | ⟨-, -, -, -, -, rfl⟩ :=
    execSym_cases h
  · exact List.prefix_rfl
  · exact List.prefix_rfl
  · exact List.prefix_rfl
  · exact List.prefix_rfl
  · exact List.prefix_rfl
  · exact missIndex_out_prefix k s

theorem execEnd_out_prefix {s t : State} (h : execEnd s = .next t) : s.out <+: t.out := by
  obtain ⟨-, rfl⟩ | ⟨-, rfl⟩ | ⟨-, rfl⟩ := execEnd_cases h
  · exact List.prefix_rfl
  · exact List.prefix_rfl
  · exact finishFrame_out_prefix s

theorem exec_out_prefix {i : Instr} {s t : State} (h : exec i s = .next t) : s.out <+: t.out := by
  obtain ⟨cts, -, hstart⟩ | ⟨k, -, hsym⟩ | ⟨-, hend⟩ | ⟨-, rfl⟩ := exec_cases h
  · exact execStart_out_prefix hstart
  · exact execSym_out_prefix hsym
  · exact execEnd_out_prefix hend
  · rw [takeIllegal_out]

/-- 20_memory.md R56: no event withdraws or changes a byte, RESET (70_reset_and_hazards.md R182) included. -/
theorem step_out_prefix {s t : State} (h : step s = .next t) : s.out <+: t.out := by
  obtain ⟨-, rfl⟩ | ⟨rest, -, rfl⟩ | ⟨w, rest, -, hexec⟩ := step_cases h
  · exact List.prefix_rfl
  · exact List.prefix_rfl
  · exact exec_out_prefix (s := { s with input := rest }) hexec

/-- Settles O42. -/
theorem deliveredBytesStay : Obligations.DeliveredBytesStay :=
  fun _ _ hstep => (step_out_prefix hstep).imp fun _ => Eq.symm

end Sys2Proof.Machine
end

section
/-! The decoder and the encoder of command words are inverse to each other (30_encoding.md R70 to R75). -/

namespace Sys2Proof

/-! The two fields of a word. -/

@[simp] theorem opField_cmdWord (op : BitVec 2) (arg : Arg) : opField (cmdWord op arg) = op :=
  BitVec.extractLsb'_append_eq_left

@[simp] theorem argField_cmdWord (op : BitVec 2) (arg : Arg) : argField (cmdWord op arg) = arg :=
  BitVec.extractLsb'_append_eq_right

/-- 30_encoding.md R70: a word is its two fields. -/
theorem cmdWord_fields (w : CmdWord) : cmdWord (opField w) (argField w) = w := by
  rw [cmdWord, opField, argField, BitVec.extractLsb'_append_extractLsb'_eq_extractLsb' (by decide)]
  simp

/-! The reserved rows of `op` = 10 (30_encoding.md R75 b). -/

/-- The rows' arithmetic test and the decoder's search, from bit 0 up, agree on which bit is the lowest set one. -/
theorem lowestSetBitIs_iff (n : Nat) (arg : Arg) :
    lowestSetBitIs n arg = true ↔ arg.getLsbD n = true ∧ ∀ i < n, arg.getLsbD i = false := by
  rw [lowestSetBitIs, beq_iff_eq]
  constructor
  · intro hmod
    have hbit (i : Nat) : (decide (i < n + 1) && arg.getLsbD i) = decide (n = i) := by
      rw [← Nat.testBit_two_pow, ← hmod, Nat.testBit_mod_two_pow]
      rfl
    exact ⟨by simpa using hbit n, fun i hi => by simpa [hi.ne', Nat.lt_succ_of_lt hi] using hbit i⟩
  · rintro ⟨hset, hclear⟩
    refine Nat.eq_of_testBit_eq fun i => ?_
    rw [Nat.testBit_mod_two_pow, Nat.testBit_two_pow]
    change (_ && arg.getLsbD i) = _
    obtain hi | rfl | hi := Nat.lt_trichotomy i n
    · simp [hclear i hi, hi.ne']
    · simp [hset]
    · simp [hi.ne, Nat.not_lt.2 (Nat.succ_le_of_lt hi)]

/-- An operand none of whose nine bits is set is 0. -/
theorem eq_zero_of_bits_clear {arg : Arg} (h : ∀ i < 9, arg.getLsbD i = false) : arg = 0 :=
  BitVec.eq_of_getLsbD_eq fun i hi => (h i hi).trans BitVec.getLsbD_zero.symm

/-- Every operand of `op` = 10 decodes to a well-formed command. -/
theorem wf_decodeEnd (arg : Arg) : (decodeEnd arg).wf = true := by
  unfold decodeEnd
  split_ifs
  case neg => rfl
  all_goals
    refine (lowestSetBitIs_iff _ arg).2 ⟨‹_›, fun i hi => ?_⟩
    interval_cases i <;> simp_all only [Bool.not_eq_true]

/-- A command of `op` = 10 keeps the whole operand. -/
theorem encode_decodeEnd (arg : Arg) : encode (decodeEnd arg) = cmdWord 2 arg := by
  unfold decodeEnd
  split_ifs
  case neg =>
    refine congrArg (cmdWord 2) (eq_zero_of_bits_clear fun i hi => ?_).symm
    interval_cases i <;> simp_all only [Bool.not_eq_true]
  all_goals rfl

/-- A word with `op` = 10 is decoded as its operand is. -/
theorem decode_cmdWord_two (arg : Arg) : decode (cmdWord 2 arg) = decodeEnd arg := by
  simp [decode]

/-! Decoding inverts encoding, and encoding inverts decoding. -/

/-- 30_encoding.md R71: a well-formed command is read back from its word. The decoder's search stops at the bit of the
command's row, since the bits below it are clear. -/
theorem decode_encode {i : Instr} (h : i.wf = true) : decode (encode i) = i := by
  cases i with
  | start cts => simp [encode, decode]
  | sym k => simp [encode, decode]
  | endCmd => rw [encode, decode_cmdWord_two]; rfl
  | illegalOp3 arg => simp [encode, decode]
  | _ =>
    obtain ⟨hset, hclear⟩ := (lowestSetBitIs_iff _ _).1 h
    rw [encode, decode_cmdWord_two]
    simp [decodeEnd, hset, hclear, -BitVec.getLsbD_eq_getElem]

/-- Settles O1. -/
theorem decodeOfEncodeIsTheCommand : Obligations.DecodeOfEncodeIsTheCommand :=
  fun _ => decode_encode

/-- 30_encoding.md R75: the value of `op` selects the command, which keeps the operand. -/
theorem wf_decode_and_encode_decode (w : CmdWord) : (decode w).wf = true ∧ encode (decode w) = w := by
  have hfields := cmdWord_fields w
  unfold decode
  split_ifs with h0 h1 h2
  · exact ⟨rfl, by rwa [h0] at hfields⟩
  · exact ⟨rfl, by rwa [h1] at hfields⟩
  · exact ⟨wf_decodeEnd _, (encode_decodeEnd _).trans (by rwa [h2] at hfields)⟩
  · have h3 : opField w = 3 := by bv_omega
    exact ⟨rfl, by rwa [h3] at hfields⟩

theorem wf_decode (w : CmdWord) : (decode w).wf = true := (wf_decode_and_encode_decode w).1

@[simp] theorem encode_decode (w : CmdWord) : encode (decode w) = w := (wf_decode_and_encode_decode w).2

/-- Settles O2. -/
theorem encodeOfDecodeIsTheWord : Obligations.EncodeOfDecodeIsTheWord := wf_decode_and_encode_decode

/-- Settles O4: each written word is the word of its well-formed command, which decoding gives back. -/
theorem writtenWordsDecode : Obligations.WrittenWordsDecode :=
  ⟨decode_encode (i := .start 4) rfl, decode_encode (i := .start 256) rfl, decode_encode (i := .sym 3) rfl,
    decode_encode (i := .sym 511) rfl, decode_encode (i := .endCmd) rfl, decode_encode (i := .illegalEndArgB0 1) rfl,
    decode_encode (i := .illegalEndArgB8 256) rfl, decode_encode (i := .illegalEndArgB3 0b110101000) rfl,
    decode_encode (i := .illegalOp3 0) rfl⟩

end Sys2Proof
end

section
/-! The rows of the opcode table (INDEX.md; 30_encoding.md R75). -/

namespace Sys2Proof

/-- A command's word is a word of its row: the family of laws, for every constructor. -/
theorem rowMatch (i : Instr) : Laws.RowMatch.Statement i := by
  cases i with
  | start arg => exact Laws.RowMatch.start arg
  | sym arg => exact Laws.RowMatch.sym arg
  | endCmd => exact Laws.RowMatch.endCmd
  | illegalEndArgB0 arg => exact Laws.RowMatch.illegalEndArgB0 arg
  | illegalEndArgB1 arg => exact Laws.RowMatch.illegalEndArgB1 arg
  | illegalEndArgB2 arg => exact Laws.RowMatch.illegalEndArgB2 arg
  | illegalEndArgB3 arg => exact Laws.RowMatch.illegalEndArgB3 arg
  | illegalEndArgB4 arg => exact Laws.RowMatch.illegalEndArgB4 arg
  | illegalEndArgB5 arg => exact Laws.RowMatch.illegalEndArgB5 arg
  | illegalEndArgB6 arg => exact Laws.RowMatch.illegalEndArgB6 arg
  | illegalEndArgB7 arg => exact Laws.RowMatch.illegalEndArgB7 arg
  | illegalEndArgB8 arg => exact Laws.RowMatch.illegalEndArgB8 arg
  | illegalOp3 arg => exact Laws.RowMatch.illegalOp3 arg

theorem row_mem_opcodeTable (i : Instr) : i.row ∈ opcodeTable := by
  cases i <;> simp [opcodeTable, Instr.row]

theorem decode_row_matchesWord (w : CmdWord) : (decode w).row.matchesWord w = true := by
  simpa using rowMatch (decode w) (wf_decode w)

/-- A word of two rows has both patterns on the bits that both masks keep. -/
theorem patterns_agree_of_matchesWord {r r' : OpcodeRow} {w : CmdWord} (h : r.matchesWord w = true)
    (h' : r'.matchesWord w = true) : r.pattern &&& r'.mask = r'.pattern &&& r.mask := by
  simp only [OpcodeRow.matchesWord, beq_iff_eq] at h h'
  rw [← h, ← h', BitVec.and_assoc, BitVec.and_assoc, BitVec.and_comm r.mask]

/-- Two rows of the table that agree so are one row. -/
theorem row_eq_of_patterns_agree :
    ∀ r ∈ opcodeTable, ∀ r' ∈ opcodeTable, r.pattern &&& r'.mask = r'.pattern &&& r.mask → r = r' := by
  decide

theorem matchesWord_iff {r : OpcodeRow} (hr : r ∈ opcodeTable) (w : CmdWord) :
    r.matchesWord w = true ↔ r = (decode w).row := by
  constructor
  · intro h
    exact row_eq_of_patterns_agree r hr _ (row_mem_opcodeTable _)
      (patterns_agree_of_matchesWord h (decode_row_matchesWord w))
  · rintro rfl
    exact decode_row_matchesWord w

theorem opcodeTable_nodup : opcodeTable.Nodup := by decide

/-- Settles O3: of the table's rows, which are distinct, only the command's own matches. -/
theorem everyWordMatchesExactlyItsRow : Obligations.EveryWordMatchesExactlyItsRow := by
  intro w
  have hfilter : opcodeTable.filter (fun r => r.matchesWord w) = opcodeTable.filter (· == (decode w).row) :=
    List.filter_congr fun r hr => by rw [Bool.eq_iff_iff, matchesWord_iff hr, beq_iff_eq]
  rw [hfilter, List.filter_beq, List.count_eq_one_of_mem opcodeTable_nodup (row_mem_opcodeTable _)]
  rfl

end Sys2Proof
end

section
/-! The reserved words (30_encoding.md R75, 60_exceptions.md R155). -/

namespace Sys2Proof.Machine

/-- With `op` = 10 a word is `END` or reserved. -/
theorem decodeEnd_eq_endCmd_or_reserved (arg : Arg) :
    decodeEnd arg = .endCmd ∨ isReserved (decodeEnd arg) = true := by
  unfold decodeEnd
  split_ifs
  case neg => exact .inl rfl
  all_goals exact .inr rfl

/-- 30_encoding.md R74: `END` is the word whose operand is 0, since encoding gives the operand back. -/
theorem decodeEnd_eq_endCmd_iff (arg : Arg) : decodeEnd arg = .endCmd ↔ arg = 0 := by
  constructor
  · intro hend
    have hword := encode_decodeEnd arg
    rw [hend] at hword
    simpa [encode] using congrArg argField hword.symm
  · rintro rfl
    rfl

theorem isReserved_decodeEnd_iff (arg : Arg) : isReserved (decodeEnd arg) = true ↔ arg ≠ 0 := by
  rw [ne_eq, ← decodeEnd_eq_endCmd_iff]
  refine ⟨fun hres hend => ?_, (decodeEnd_eq_endCmd_or_reserved arg).resolve_left⟩
  rw [hend] at hres
  cases hres

/-- 30_encoding.md R75, by the value of `op`. -/
theorem isReserved_decode_iff (w : CmdWord) :
    isReserved (decode w) = true ↔ opField w = 3#2 ∨ (opField w = 2#2 ∧ argField w ≠ 0) := by
  unfold decode
  split_ifs with h0 h1 h2
  · simp [h0, isReserved]
  · simp [h1, isReserved]
  · simp [h2, isReserved_decodeEnd_iff]
  · have h3 : opField w = 3#2 := by bv_omega
    simp [h3, isReserved]

/-- 30_encoding.md R75: a word that is not reserved is one of the three commands. -/
theorem decode_of_not_reserved {w : CmdWord} (h : isReserved (decode w) = false) :
    decode w = .start (argField w) ∨ decode w = .sym (argField w) ∨ decode w = .endCmd := by
  unfold decode at h ⊢
  split_ifs at h ⊢
  · exact .inl rfl
  · exact .inr (.inl rfl)
  · exact .inr (.inr ((decodeEnd_eq_endCmd_or_reserved _).resolve_right (by simp [h])))
  · cases h

/-- Settles O5. -/
theorem reservedWordsAreIllegal : Obligations.ReservedWordsAreIllegal := by
  refine fun w => ⟨isReserved_decode_iff w, decode_of_not_reserved, fun hres s hst => ?_⟩
  rw [exec_reserved hres, takeIllegal_of_ne hst]
  rfl

end Sys2Proof.Machine
end

section
/-! The tables of the phrase-level encoder, and one turn of its loop (41_symbol.md R133). -/

namespace Sys2Proof.Reference

theorem codeOf_singleton {m i : Nat} (table : List (List Nat × Nat)) (h : i < 2 ^ m) : codeOf m table [i] = some i :=
  if_pos h

/-- The initial table maps the single-index phrases to the literal codes and holds nothing else. -/
theorem codeOf_initialTable {m : Nat} (q : List Nat) (c : Nat) : codeOf m [] q = some c ↔ c < 2 ^ m ∧ [c] = q := by
  match q with
  | [] => simp [codeOf]
  | [i] =>
    rw [codeOf, Option.ite_none_right_eq_some, Option.some.injEq, List.singleton_inj]
    exact ⟨fun ⟨hi, heq⟩ => ⟨heq ▸ hi, heq.symm⟩, fun ⟨hc, heq⟩ => ⟨heq ▸ hc, heq.symm⟩⟩
  | i :: j :: rest => simp [codeOf]

/-- A new entry for a phrase without a code adds that phrase to the map and changes nothing else of it. -/
theorem codeOf_append_entry {m : Nat} {table : List (List Nat × Nat)} {r : List Nat} (hr : 2 ≤ r.length)
    (hnew : codeOf m table r = none) (n : Nat) (q : List Nat) (c : Nat) :
    codeOf m (table ++ [(r, n)]) q = some c ↔ codeOf m table q = some c ∨ (r = q ∧ n = c) := by
  match q with
  | [] => simp [codeOf, List.ne_nil_of_length_pos (Nat.zero_lt_of_lt hr)]
  | [i] =>
    have hne : r ≠ [i] := fun heq => by simp [heq] at hr
    simp [codeOf, hne]
  | i :: j :: rest =>
    by_cases hq : r = i :: j :: rest
    · subst hq
      have hfind := Option.map_eq_none_iff.1 hnew
      simp [codeOf, List.find?_append, hfind]
    · simp [codeOf, hq]

namespace Encoder
variable {m k : Nat} {e : Encoder}

/-- A phrase of the table: it grows by the index, and nothing else changes. -/
theorem turn_of_some {c : Nat} (h : codeOf m e.table (e.p ++ [k]) = some c) : e.turn m k = { e with p := e.p ++ [k] } := by
  simp [turn, h]

/-- A phrase not in the table, with room left in it. -/
theorem turn_of_none (h : codeOf m e.table (e.p ++ [k]) = none) (hnext : e.next < 4095) :
    e.turn m k = ⟨e.codes ++ e.phraseCode m, e.table ++ [(e.p ++ [k], e.next)], e.next + 1,
      if e.next = 2 ^ e.w then e.w + 1 else e.w, [k]⟩ := by
  have hroom : e.next + 1 ≠ 4096 := by omega
  simp [turn, h, hroom]

/-- A phrase not in the table, whose code fills it. -/
theorem turn_of_none_full (h : codeOf m e.table (e.p ++ [k]) = none) (hnext : e.next = 4095) (hw : e.w = 12) :
    e.turn m k = ⟨e.codes ++ e.phraseCode m ++ [(2 ^ m, 12)], [], 2 ^ m + 2, m + 1, [k]⟩ := by
  simp [turn, h, hnext, hw]

/-- After an index the current phrase is not empty. -/
theorem turn_p_ne_nil (m k : Nat) (e : Encoder) : (e.turn m k).p ≠ [] := by
  unfold turn
  split
  · simp
  · split_ifs <;> simp

end Encoder

end Sys2Proof.Reference
end

section
/-! What a frame's codes look like up to any point, and the shape of the whole sequence (30_encoding.md R78 to R83). -/

namespace Sys2Proof.Reference

/-- `p` may be emitted for a phrase while `next` is the code of the next entry: it is an index of the alphabet or an
earlier phrase code, at the width that `next` gives (10_state.md R39, R40). -/
structure IsPhraseAt (cts m next : Nat) (p : Nat × Nat) : Prop where
  room : next ≤ 4095
  entry : p.1 < cts ∨ (2 ^ m + 2 ≤ p.1 ∧ p.1 < next)
  width : p.2 = Nat.log2 (next - 1) + 1

/-- The codes a frame may have begun with when `next` is the code of the next entry: CLEAR, then codes of phrases, each
emitted with a new entry, and CLEAR again when the entries have reached 4096. -/
inductive FramePrefix (cts m : Nat) : List (Nat × Nat) → Nat → Prop
  /-- 40_frame_control.md R100: `START` emits CLEAR and sets `NEXT` to `FIRST`. -/
  | opened : FramePrefix cts m [(2 ^ m, m + 1)] (2 ^ m + 2)
  /-- 41_symbol.md R123, R124: a miss emits the current phrase's code and makes one entry. -/
  | phrase {codes : List (Nat × Nat)} {next : Nat} {p : Nat × Nat} : FramePrefix cts m codes next →
      IsPhraseAt cts m next p → FramePrefix cts m (codes ++ [p]) (next + 1)
  /-- 41_symbol.md R126: the entry that fills the table is followed by CLEAR. -/
  | cleared {codes : List (Nat × Nat)} : FramePrefix cts m codes 4096 →
      FramePrefix cts m (codes ++ [(2 ^ m, 12)]) (2 ^ m + 2)

section
variable {cts m next : Nat} {codes pre post run : List (Nat × Nat)} {p : Nat × Nat}

theorem IsPhraseAt.ne_clear (h : IsPhraseAt cts m next p) (hcts : cts ≤ 2 ^ m) : p.1 ≠ 2 ^ m := by
  have hentry := h.entry
  omega

/-- A list split at an element, where the list's last element stands apart. -/
theorem concat_split {α : Type} {l pre post : List α} {a b : α} (h : l ++ [b] = pre ++ a :: post) :
    (post = [] ∧ l = pre ∧ a = b) ∨ ∃ post', post = post' ++ [b] ∧ l = pre ++ a :: post' := by
  obtain rfl | ⟨post, c, rfl⟩ := List.eq_nil_or_concat' post
  · obtain ⟨hl, hab⟩ := List.append_inj' h rfl
    exact .inl ⟨rfl, hl, (List.singleton_inj.1 hab).symm⟩
  · rw [← List.cons_append, ← List.append_assoc] at h
    obtain ⟨hl, hbc⟩ := List.append_inj' h rfl
    exact .inr ⟨post, congrArg _ hbc.symm, hl⟩

/-- A frame begins with the opening CLEAR. -/
theorem FramePrefix.begins (h : FramePrefix cts m codes next) : ∃ mid, codes = (2 ^ m, m + 1) :: mid := by
  induction h with
  | opened => exact ⟨[], rfl⟩
  | phrase _ _ ih | cleared _ ih =>
    obtain ⟨mid, rfl⟩ := ih
    exact ⟨_, rfl⟩

theorem FramePrefix.next_bounds (h : FramePrefix cts m codes next) (hm : m ≤ 8) :
    2 ^ m + 2 ≤ next ∧ next ≤ 4096 := by
  have hpow : 2 ^ m ≤ 2 ^ 8 := Nat.pow_le_pow_right (by decide) hm
  induction h with
  | opened => omega
  | phrase _ hp ih =>
    have hroom := hp.room
    omega
  | cleared _ _ => omega

/-- What stands at a position, by the codes before it. -/
theorem FramePrefix.at_position (h : FramePrefix cts m codes next) (hsplit : codes = pre ++ p :: post) :
    (pre = [] ∧ p = (2 ^ m, m + 1)) ∨ (∃ n, FramePrefix cts m pre n ∧ IsPhraseAt cts m n p) ∨
      (FramePrefix cts m pre 4096 ∧ p = (2 ^ m, 12)) := by
  induction h generalizing post with
  | opened =>
    obtain ⟨-, hpre, hp⟩ | ⟨_, -, hnil⟩ := concat_split (l := []) hsplit
    · exact .inl ⟨hpre.symm, hp⟩
    · simp at hnil
  | phrase hcodes hq ih =>
    obtain ⟨-, rfl, rfl⟩ | ⟨post, -, hcut⟩ := concat_split hsplit
    · exact .inr (.inl ⟨_, hcodes, hq⟩)
    · exact ih hcut
  | cleared hcodes ih =>
    obtain ⟨-, rfl, rfl⟩ | ⟨post, -, hcut⟩ := concat_split hsplit
    · exact .inr (.inr ⟨hcodes, rfl⟩)
    · exact ih hcut

/-- 30_encoding.md R80: `next` counts the codes emitted after the last CLEAR. -/
theorem FramePrefix.next_eq (h : FramePrefix cts m codes next) (hcts : cts ≤ 2 ^ m) {x : Nat}
    (hsplit : codes = pre ++ (2 ^ m, x) :: run) (hrun : ∀ q ∈ run, q.1 ≠ 2 ^ m) : next = 2 ^ m + 2 + run.length := by
  induction h generalizing run with
  | opened =>
    obtain ⟨rfl, -, -⟩ | ⟨_, -, hnil⟩ := concat_split (l := []) hsplit
    · rfl
    · simp at hnil
  | phrase _ hq ih =>
    obtain ⟨-, -, rfl⟩ | ⟨run, rfl, hcut⟩ := concat_split hsplit
    · exact absurd rfl (hq.ne_clear hcts)
    · have hnext := ih hcut fun q hmem => hrun q (List.mem_append_left _ hmem)
      rw [List.length_append, hnext]
      rfl
  | cleared _ _ =>
    obtain ⟨rfl, -, -⟩ | ⟨run, rfl, -⟩ := concat_split hsplit
    · rfl
    · exact absurd rfl (hrun (2 ^ m, 12) (List.mem_append_right _ List.mem_cons_self))

/-- 10_state.md R39, R80: the width that `next` gives holds every code up to `next - 1` and is `MCS + 1` to 12. -/
theorem width_of_next (hm : 2 ^ m + 2 ≤ next) (hnext : next ≤ 4096) :
    next ≤ 2 ^ (Nat.log2 (next - 1) + 1) ∧ m + 1 ≤ Nat.log2 (next - 1) + 1 ∧ Nat.log2 (next - 1) + 1 ≤ 12 := by
  have hpos := Nat.two_pow_pos m
  have hlt : next - 1 < 2 ^ (Nat.log2 (next - 1) + 1) := Nat.lt_log2_self
  have hlow : m ≤ Nat.log2 (next - 1) := (Nat.le_log2 (by omega)).2 (by omega)
  have hhigh : Nat.log2 (next - 1) < 12 := (Nat.log2_lt (by omega)).2 (by omega)
  omega

end

section
variable {cts m next w : Nat} {ks : List Nat} {mid : List (Nat × Nat)}

/-- 30_encoding.md R78, R79 for the codes before END-OF-INFORMATION. -/
theorem FramePrefix.fits {codes : List (Nat × Nat)} (h : FramePrefix cts m codes next) (hm : m ≤ 8) (hcts : cts ≤ 2 ^ m)
    {p : Nat × Nat} (hp : p ∈ codes) : p.1 < 2 ^ p.2 ∧ m + 1 ≤ p.2 ∧ p.2 ≤ 12 := by
  obtain ⟨pre, post, hsplit⟩ := List.append_of_mem hp
  obtain ⟨-, rfl⟩ | ⟨n, hpre, hphrase⟩ | ⟨-, rfl⟩ := h.at_position hsplit
  · exact ⟨Nat.pow_lt_pow_right (by decide) (Nat.lt_succ_self m), le_rfl, by omega⟩
  · obtain ⟨hlow, -⟩ := hpre.next_bounds hm
    have hroom := hphrase.room
    have hentry := hphrase.entry
    have hwidth := width_of_next hlow (by omega)
    rw [hphrase.width]
    omega
  · exact ⟨Nat.pow_lt_pow_right (by decide) (by omega), by omega, le_rfl⟩

/-- 30_encoding.md R78 to R83: a frame's codes so far, closed by END-OF-INFORMATION at the last width, have the shape of
a whole frame's. -/
theorem FramePrefix.frameShape (h : FramePrefix cts m ((2 ^ m, m + 1) :: mid) next) (hm2 : 2 ≤ m) (hm : m ≤ 8)
    (hcts : cts ≤ 2 ^ m) (hend : ∀ pre p, (2 ^ m, m + 1) :: mid = pre ++ [p] → w = p.2)
    (hnone : ks = [] → mid = []) (hlast : ks ≠ [] → ∃ first p, mid = first ++ [p] ∧ p.1 ≠ 2 ^ m) :
    FrameShape cts m ks mid w where
  widths := by
    have hw : m + 1 ≤ w ∧ w ≤ 12 := by
      obtain ⟨pre, p, hpre⟩ := (List.eq_nil_or_concat' ((2 ^ m, m + 1) :: mid)).resolve_left (List.cons_ne_nil _ _)
      rw [hend pre p hpre]
      exact (h.fits hm hcts (by simp [hpre])).2
    intro p hp
    rcases List.mem_append.1 hp with hp | hp
    · exact h.fits hm hcts hp
    · obtain rfl := List.mem_singleton.1 hp
      have hfour : 2 ^ 2 ≤ 2 ^ m := Nat.pow_le_pow_right (by decide) hm2
      have hdouble : 2 ^ (m + 1) ≤ 2 ^ w := Nat.pow_le_pow_right (by decide) hw.1
      rw [pow_succ] at hdouble
      exact ⟨show 2 ^ m + 1 < 2 ^ w by omega, hw⟩
  classes := by
    intro p hp
    obtain ⟨pre, post, rfl⟩ := List.append_of_mem hp
    obtain ⟨hnil, -⟩ | ⟨n, -, hphrase⟩ | ⟨-, rfl⟩ := h.at_position (List.cons_append ..).symm
    · cases hnil
    · have hroom := hphrase.room
      have hentry := hphrase.entry
      omega
    · exact .inr (.inl rfl)
  afterClear := by
    rintro pre ⟨_, x⟩ b post hsplit rfl
    rw [List.append_cons] at hsplit
    obtain ⟨hnil, -⟩ | ⟨n, hpre, hphrase⟩ | ⟨hpre, -⟩ := h.at_position hsplit
    · simp at hnil
    · have hn := hpre.next_eq (run := []) hcts rfl nofun
      have hentry := hphrase.entry
      simp only [List.length_nil] at hn
      omega
    · have hn := hpre.next_eq (run := []) hcts rfl nofun
      have hpow : 2 ^ m ≤ 2 ^ 8 := Nat.pow_le_pow_right (by decide) hm
      simp only [List.length_nil] at hn
      omega
  noIndex := hnone
  beforeEnd := hlast
  widthOfPosition := by
    intro pre x run p post hsplit hrun hp
    obtain ⟨hnil, -⟩ | ⟨n, hpre, hphrase⟩ | ⟨-, rfl⟩ := h.at_position hsplit
    · simp at hnil
    · rw [hphrase.width, hpre.next_eq hcts rfl hrun]
      congr 2
      omega
    · exact absurd rfl hp
  laterClear := by
    intro pre x run y post hsplit hrun
    obtain ⟨hnil, -⟩ | ⟨n, -, hphrase⟩ | ⟨hpre, hy⟩ := h.at_position hsplit
    · simp at hnil
    · exact absurd rfl (hphrase.ne_clear hcts)
    · exact ⟨congrArg Prod.snd hy, (hpre.next_eq hcts rfl hrun).symm⟩
  endWidth := hend

end

end Sys2Proof.Reference
end

section
/-! The registers of a frame just opened, as numbers (40_frame_control.md R100). -/

namespace Sys2Proof.Machine

section
variable {cts : Arg} (h : IsTableSize cts) (s : State)
include h

theorem openFrame_mcs_toNat : (openFrame cts s).mcs.toNat = minCodeSize cts := (configured_openFrame h s).mcsOfCts

theorem minCodeSize_le_eight : minCodeSize cts ≤ 8 := by
  obtain ⟨n, -, hn, hcts⟩ := h
  rw [minCodeSize_of_two_pow hcts]
  omega

theorem openFrame_cw_toNat : (openFrame cts s).cw.toNat = minCodeSize cts + 1 := by
  have hm := minCodeSize_le_eight h
  rw [openFrame_cw, BitVec.toNat_ofNat]
  omega

theorem openFrame_next_toNat : (openFrame cts s).next.toNat = 2 ^ minCodeSize cts + 2 := by
  have hpow : 2 ^ minCodeSize cts ≤ 2 ^ 8 := Nat.pow_le_pow_right (by decide) (minCodeSize_le_eight h)
  rw [openFrame_next, BitVec.toNat_ofNat]
  exact Nat.mod_eq_of_lt (by omega)

end

end Sys2Proof.Machine
end

section
/-! What `END` delivers, as the closed formula of 30_encoding.md R81 (40_frame_control.md R103). -/

namespace Sys2Proof.Machine

open Sys2Proof.Reference

/-- The codes `END` emits: the remaining phrase's, if there is one, and END-OF-INFORMATION. -/
def endCodes (s : State) : List (Nat × Nat) :=
  (if s.pv then [(s.cur.toNat, s.cw.toNat)] else []) ++ [(eoiCode s.mcs, s.cw.toNat)]

theorem WidthsHold.eoiFits {s : State} (h : WidthsHold s) : eoiCode s.mcs < 2 ^ s.cw.toNat := by
  have hfour : 2 ^ 2 ≤ 2 ^ s.mcs.toNat := Nat.pow_le_pow_right (by decide) h.mcsLow
  have hdouble : 2 ^ (s.mcs.toNat + 1) ≤ 2 ^ s.cw.toNat := Nat.pow_le_pow_right (by decide) h.cwLow
  rw [pow_succ] at hdouble
  rw [eoiCode]
  omega

/-- Every code of `END` fits its width. -/
theorem endCodes_fit {s : State} (h : WidthsHold s) : ∀ p ∈ endCodes s, p.1 < 2 ^ p.2 := by
  cases hpv : s.pv with
  | false => simpa [endCodes, hpv] using h.eoiFits
  | true => simpa [endCodes, hpv] using ⟨h.curFits hpv, h.eoiFits⟩

theorem streamBits_endCodes_pos {s : State} (h : WidthsHold s) : 0 < streamBits (endCodes s) := by
  have hcw := h.cwLow
  simp only [endCodes, streamBits_append, streamBits]
  omega

/-- `END` before its flush. -/
theorem emitted_endCodes {s : State} (h : WidthsHold s) :
    Emitted (endCodes s) s (emit (eoiCode s.mcs) s.cw.toNat (emitRemaining s)) := by
  cases hpv : s.pv with
  | false =>
    simpa [endCodes, emitRemaining, hpv] using emitted_emit h.eoiFits h.accWithin
  | true =>
    have hcur := emitted_emit (h.curFits hpv) h.accWithin
    have heoi := emitted_emit h.eoiFits (emit_accWithin (h.curFits hpv) h.accWithin)
    simpa [endCodes, emitRemaining, hpv] using hcur.trans heoi

/-- 40_frame_control.md R103: everything `END` does in a frame. -/
theorem finishFrame_eq {s : State} (h : WidthsHold s) :
    finishFrame s = { s with
      pv := false
      st := .idle
      acc := 0
      nb := 0
      out := s.out ++ frameBytes (pending s :: endCodes s) } := by
  have hflush := flush_emitted (emitted_endCodes h) h.accWithin (endCodes_fit h) (streamBits_endCodes_pos h)
  simp [finishFrame, hflush, clearPv]

end Sys2Proof.Machine
end

section
/-! In a frame the machine holds what the phrase-level encoder holds (41_symbol.md R133). -/

namespace Sys2Proof.Reference

open Sys2Proof.Machine

/-- The machine in the state `s` of the frame that was opened as `s₀` stands where the encoder stands in `e`. -/
structure Simulates (s₀ s : State) (e : Encoder) : Prop where
  inv : Inv s
  active : s.st = .active
  cts : s.cts = s₀.cts
  mcs : s.mcs = s₀.mcs
  cw : s.cw.toNat = e.w
  next : s.next.toNat = e.next
  /-- The current phrase (10_state.md R35). -/
  current : currentPhrase s = e.p
  /-- The two code tables are one map from phrases to codes (10_state.md R35). -/
  table : ∀ q c, codeOf s₀.mcs.toNat e.table q = some c ↔ IsPhraseCode s c ∧ phrase s c = q
  emitted : Emitted e.codes s₀ s
  codes : FramePrefix s₀.cts.toNat s₀.mcs.toNat e.codes e.next

/-! The dictionary as a map from phrases to codes. -/

/-- The initial table holds the literal codes and nothing else. -/
theorem isPhraseCode_phrase_initialTable {s : State} (hnext : s.next.toNat = firstCode s.mcs) (q : List Nat) (c : Nat) :
    IsPhraseCode s c ∧ phrase s c = q ↔ c < 2 ^ s.mcs.toNat ∧ [c] = q := by
  have hcode : IsPhraseCode s c ↔ c < 2 ^ s.mcs.toNat := by
    rw [IsPhraseCode, hnext]
    omega
  rw [hcode]
  exact and_congr_right fun hc => by rw [phrase_literal hc]

/-- A store at `NEXT` adds the extended phrase to the map and changes nothing else of it (41_symbol.md R124). -/
theorem isPhraseCode_phrase_write {s t : State} (hs : Configured s) (ht : Configured t) {w : DictWord}
    (hmcs : t.mcs = s.mcs) (hnext : t.next.toNat = s.next.toNat + 1) (hdict : t.dict = s.dict.write s.next.toNat w)
    (hpfx : IsPhraseCode s w.pfx.toNat) (q : List Nat) (c : Nat) :
    IsPhraseCode t c ∧ phrase t c = q ↔
      (IsPhraseCode s c ∧ phrase s c = q) ∨ (phrase s w.pfx.toNat ++ [w.sym.toNat] = q ∧ s.next.toNat = c) := by
  have hfirst := hs.nextLow
  have hold {d : Nat} (hd : IsPhraseCode s d) : phrase t d = phrase s d :=
    phrase_congr hs hmcs (fun a _ ha => by rw [hdict, Memory.read_write_other _ _ ha.ne]) d hd
  have hnew : phrase t s.next.toNat = phrase s w.pfx.toNat ++ [w.sym.toNat] := by
    obtain ⟨v, hv, -, -, hphrase⟩ := phrase_word ht (c := s.next.toNat) (by rwa [hmcs]) (by omega)
    rw [hdict, Memory.read_write_same] at hv
    obtain rfl := Option.some.inj hv
    rw [hphrase, hold hpfx]
  have hcode : IsPhraseCode t c ↔ IsPhraseCode s c ∨ s.next.toNat = c := by
    rw [IsPhraseCode, IsPhraseCode, hmcs, hnext]
    omega
  rw [hcode]
  constructor
  · rintro ⟨hc | rfl, rfl⟩
    · exact .inl ⟨hc, (hold hc).symm⟩
    · exact .inr ⟨hnew.symm, rfl⟩
  · rintro (⟨hc, rfl⟩ | ⟨rfl, rfl⟩)
    · exact ⟨.inl hc, hold hc⟩
    · exact ⟨.inr rfl, hnew⟩

/-! The start of a frame. -/

/-- `START` gives the encoder's first line (40_frame_control.md R100). -/
theorem simulates_beginFrame {s : State} (hinv : Inv s) (hidle : s.st = .idle) {cts : Arg} (hcts : IsTableSize cts) :
    Simulates (openFrame cts s) (beginFrame cts s) (Encoder.init (minCodeSize cts)) := by
  have hopen := configured_openFrame hcts s
  have hmcs := openFrame_mcs_toNat hcts s
  have hcw := openFrame_cw_toNat hcts s
  have hnext := openFrame_next_toNat hcts s
  have hclr : Emitted [(clrCode (openFrame cts s).mcs, (openFrame cts s).cw.toNat)] (openFrame cts s) (beginFrame cts s) :=
    emitted_emit hopen.clrFits Nat.one_pos
  exact {
    inv := hinv.beginFrame hidle hcts
    active := rfl
    cts := rfl
    mcs := rfl
    cw := hcw
    next := hnext
    current := rfl
    table := fun q c => by
      rw [isPhraseCode_phrase_initialTable (s := beginFrame cts s) (by rw [firstCode]; exact hmcs ▸ hnext)]
      exact codeOf_initialTable q c
    emitted := by rw [clrCode, hcw, hmcs] at hclr; exact hclr
    codes := by rw [hmcs]; exact .opened }

/-! One index. -/

section
variable {s₀ s : State} {e : Encoder} {k : Arg}

theorem Simulates.configured (h : Simulates s₀ s e) : Configured s := h.inv.activeConfigured h.active

/-- Other events to come change nothing of a frame (log entry 1). -/
theorem Simulates.withInput (h : Simulates s₀ s e) (events : List Event) : Simulates s₀ { s with input := events } e :=
  ⟨h.inv.withInput events, h.active, h.cts, h.mcs, h.cw, h.next, h.current, h.table,
    ⟨h.emitted.out, h.emitted.acc, h.emitted.nb⟩, h.codes⟩

/-- With a current phrase, the code it has in the encoder's table is `CUR`. -/
theorem Simulates.codeOf_p (h : Simulates s₀ s e) (hpv : s.pv = true) :
    codeOf s₀.mcs.toNat e.table e.p = some s.cur.toNat := by
  refine (h.table _ _).2 ⟨isPhraseCode_cur h.configured hpv, ?_⟩
  rw [← h.current, currentPhrase, if_pos hpv]

/-- The code that ends the current phrase, if there is one, is the same in the two. -/
theorem Simulates.phraseCode_eq (h : Simulates s₀ s e) :
    e.phraseCode s₀.mcs.toNat = if s.pv then [(s.cur.toNat, s.cw.toNat)] else [] := by
  rw [Encoder.phraseCode, h.cw]
  split
  · next hpv => rw [h.codeOf_p hpv]; rfl
  · next hpv =>
    have hnil : e.p = [] := by rw [← h.current, currentPhrase, if_neg hpv]
    rw [hnil]
    rfl

/-- The phrase grows by an index to another phrase of the table: what `firstIndex` and `adoptMatch` do. -/
theorem Simulates.extend (h : Simulates s₀ s e) {c : Code} {j : Nat} (hinv : Inv { s with cur := c, pv := true })
    (hc : IsPhraseCode s c.toNat) (hphrase : phrase s c.toNat = e.p ++ [j]) :
    Simulates s₀ { s with cur := c, pv := true } (e.turn s₀.mcs.toNat j) := by
  rw [Encoder.turn_of_some ((h.table _ _).2 ⟨hc, hphrase⟩)]
  exact ⟨hinv, h.active, h.cts, h.mcs, h.cw, h.next, hphrase, h.table,
    ⟨h.emitted.out, h.emitted.acc, h.emitted.nb⟩, h.codes⟩

/-- 41_symbol.md R121: the first index of a frame. -/
theorem Simulates.firstIndex (h : Simulates s₀ s e) (hpv : s.pv = false) (hk : k.toNat < s.cts.toNat) :
    Simulates s₀ (firstIndex k s) (e.turn s₀.mcs.toNat k.toNat) := by
  have hlit : (literalCode k).toNat < 2 ^ s.mcs.toNat := by
    rw [literalCode_toNat]
    exact Nat.lt_of_lt_of_le hk h.configured.ctsWithin
  have hnil : e.p = [] := by simp [← h.current, currentPhrase, hpv]
  refine h.extend (h.inv.firstIndex h.active hk) (.inl hlit) ?_
  rw [phrase_literal hlit, literalCode_toNat, hnil, List.nil_append]

/-- 41_symbol.md R122: a match. -/
theorem Simulates.adoptMatch (h : Simulates s₀ s e) (hpv : s.pv = true) {c : Nat}
    (hc : dictLookup s.cur k.toNat s = some c) : Simulates s₀ (adoptMatch c s) (e.turn s₀.mcs.toNat k.toNat) := by
  have hholds := holdsPairAt_of_dictLookup h.inv.dictWf hc
  obtain ⟨hcode, hphrase⟩ := (holdsPairAt_iff_phrase h.configured (isPhraseCode_cur h.configured hpv) k.toNat c).1 hholds
  have hcur : (BitVec.ofNat 12 c).toNat = c := by
    have := h.configured.nextHigh
    have := hholds.2.1
    rw [BitVec.toNat_ofNat]
    omega
  have heq : Machine.adoptMatch c s = { s with cur := BitVec.ofNat 12 c, pv := true } := by rw [← hpv]; rfl
  rw [heq]
  refine h.extend (heq ▸ h.inv.adoptMatch h.active hc) (by rwa [hcur]) ?_
  rw [hcur, hphrase, ← h.current, currentPhrase, if_pos hpv]

/-- A lookup that finds nothing: the extended phrase has no code in the encoder's table. -/
theorem Simulates.codeOf_extended (h : Simulates s₀ s e) (hpv : s.pv = true) {j : Nat}
    (hnone : dictLookup s.cur j s = none) : codeOf s₀.mcs.toNat e.table (e.p ++ [j]) = none := by
  refine Option.eq_none_iff_forall_ne_some.2 fun c hc => not_holdsPairAt_of_dictLookup_none h.inv.dictWf hnone c ?_
  rw [holdsPairAt_iff_phrase h.configured (isPhraseCode_cur h.configured hpv)]
  rw [h.table, ← h.current, currentPhrase, if_pos hpv] at hc
  exact hc

/-- The code a miss emits stands where a phrase's code may. -/
theorem Simulates.isPhraseAt (h : Simulates s₀ s e) (hpv : s.pv = true) :
    IsPhraseAt s₀.cts.toNat s₀.mcs.toNat e.next (s.cur.toNat, s.cw.toNat) where
  room := h.next ▸ h.configured.nextHigh
  entry := by
    rw [← h.next, ← h.cts, ← h.mcs]
    exact h.configured.curIsEntry hpv
  width := by rw [← h.next, h.configured.cw_eq_bits]

/-- After a miss the phrase is the one index (41_symbol.md R127): what is left to compare are the width, the tables and the
codes. -/
theorem Simulates.after_miss (h : Simulates s₀ s e) (hpv : s.pv = true) (hk : k.toNat < s.cts.toNat)
    (hnone : dictLookup s.cur k.toNat s = none) {e' : Encoder} (hp : e'.p = [k.toNat])
    (hcw : (missIndex k s).cw.toNat = e'.w) (hnext : (missIndex k s).next.toNat = e'.next)
    (htable : ∀ q c, codeOf s₀.mcs.toNat e'.table q = some c ↔
      IsPhraseCode (missIndex k s) c ∧ phrase (missIndex k s) c = q)
    (hemitted : Emitted e'.codes s₀ (missIndex k s))
    (hcodes : FramePrefix s₀.cts.toNat s₀.mcs.toNat e'.codes e'.next) : Simulates s₀ (missIndex k s) e' where
  inv := h.inv.missIndex h.active hpv hk hnone
  active := by simpa using h.active
  cts := by simpa using h.cts
  mcs := by simpa using h.mcs
  cw := hcw
  next := hnext
  current := by
    have hlit : k.toNat < 2 ^ (missIndex k s).mcs.toNat := by
      rw [missIndex_mcs]
      exact Nat.lt_of_lt_of_le hk h.configured.ctsWithin
    rw [currentPhrase, missIndex_pv, if_pos hpv, missIndex_cur, literalCode_toNat, phrase_literal hlit, hp]
  table := htable
  emitted := hemitted
  codes := hcodes

/-- 41_symbol.md R123 to R125: a miss that leaves room gives the extended phrase the code `NEXT`. -/
theorem Simulates.missIndex_of_not_full (h : Simulates s₀ s e) (hpv : s.pv = true) (hk : k.toNat < s.cts.toNat)
    (hnone : dictLookup s.cur k.toNat s = none) (hnext : s.next.toNat < 4095) :
    Simulates s₀ (missIndex k s) (e.turn s₀.mcs.toNat k.toNat) := by
  have hconf := h.configured
  have hwidths := hconf.widthsHold h.inv.accWithin
  have hconf' := hconf.missIndex_of_not_full hwidths hpv hk (not_holdsPairAt_of_dictLookup_none h.inv.dictWf hnone) hnext
  obtain ⟨-, -, -, -, -, -, -, -, hgrown, -⟩ := missIndex_fields k hwidths hpv
  obtain ⟨hemitted, hnext', hcw'⟩ := hgrown hnext
  have hnew := h.codeOf_extended hpv hnone
  have hcur := h.codeOf_p hpv
  have hlength : 2 ≤ (e.p ++ [k.toNat]).length := by
    cases hp : e.p with
    | nil => rw [hp] at hcur; cases hcur
    | cons j rest => simp
  have hsym : (symField k).toNat = k.toNat := symField_toNat <| by
    obtain ⟨_, _, _, hcts, _, hle, _, hhigh, _⟩ := hconf.pows
    omega
  rw [Encoder.turn_of_none hnew (h.next ▸ hnext), h.phraseCode_eq, if_pos hpv]
  refine h.after_miss hpv hk hnone rfl (by rw [hcw', h.cw, h.next]) (by rw [hnext', h.next]) (fun q c => ?_)
    (h.emitted.trans hemitted) (h.codes.phrase (h.isPhraseAt hpv))
  rw [codeOf_append_entry hlength hnew, h.table, ← h.next,
    isPhraseCode_phrase_write hconf hconf' (missIndex_mcs k s) hnext' (missIndex_dict k s) (isPhraseCode_cur hconf hpv),
    hsym, ((h.table _ _).1 hcur).2]

/-- 41_symbol.md R126: a miss whose code fills the table clears it. -/
theorem Simulates.missIndex_of_full (h : Simulates s₀ s e) (hpv : s.pv = true) (hk : k.toNat < s.cts.toNat)
    (hnone : dictLookup s.cur k.toNat s = none) (hnext : s.next.toNat = 4095) :
    Simulates s₀ (missIndex k s) (e.turn s₀.mcs.toNat k.toNat) := by
  obtain ⟨-, -, -, -, -, -, -, -, -, hcleared⟩ := missIndex_fields k (h.configured.widthsHold h.inv.accWithin) hpv
  obtain ⟨hcw, -, hemitted, hnext', hcw'⟩ := hcleared hnext
  have hphrase := h.codes.phrase (h.isPhraseAt hpv)
  rw [← h.next, hnext] at hphrase
  rw [Encoder.turn_of_none_full (h.codeOf_extended hpv hnone) (h.next ▸ hnext) (h.cw ▸ hcw), h.phraseCode_eq, if_pos hpv]
  refine h.after_miss hpv hk hnone rfl (by rw [hcw', h.mcs]) (by rw [hnext', h.mcs]; rfl) (fun q c => ?_) ?_ hphrase.cleared
  · rw [codeOf_initialTable, isPhraseCode_phrase_initialTable (by rw [hnext', missIndex_mcs]), missIndex_mcs, h.mcs]
  · rw [hcw, List.append_assoc, ← h.mcs]
    exact h.emitted.trans hemitted

/-- `SYM` of an index of the alphabet does what one turn of the encoder's loop does (41_symbol.md R120, R133). -/
theorem Simulates.execSym (h : Simulates s₀ s e) (hk : k.toNat < s₀.cts.toNat) :
    ∃ t, execSym k s = .next t ∧ t.input = s.input ∧ Simulates s₀ t (e.turn s₀.mcs.toNat k.toNat) := by
  obtain ⟨t, hexec⟩ := h.inv.exec_next (.sym k)
  rw [← h.cts] at hk
  refine ⟨t, hexec, ?_⟩
  obtain ⟨herr, -⟩ | ⟨hidle, -⟩ | ⟨-, hbad, -⟩ | ⟨-, -, hpv, rfl⟩ | ⟨-, -, hpv, c, hc, rfl⟩ |
    ⟨-, -, hpv, hnone, -, rfl⟩ := execSym_cases hexec
  · exact absurd (h.active.symm.trans herr) nofun
  · exact absurd (h.active.symm.trans hidle) nofun
  · exact absurd hk hbad
  · exact ⟨rfl, h.firstIndex hpv hk⟩
  · exact ⟨rfl, h.adoptMatch hpv hc⟩
  · refine ⟨missIndex_input k s, ?_⟩
    obtain hnext | hnext := Nat.lt_or_eq_of_le h.configured.nextHigh
    · exact h.missIndex_of_not_full hpv hk hnone hnext
    · exact h.missIndex_of_full hpv hk hnone hnext

end

end Sys2Proof.Reference
end

section
/-! Runs of the machine over presented commands, and over a whole frame (30_encoding.md R77). -/

namespace Sys2Proof.Reference

open Sys2Proof.Machine

theorem run_succ (M : Host.Core) {s t : M.State} (h : M.step s = .next t) (n : Nat) : M.run (n + 1) s = M.run n t := by
  rw [Host.Core.run, h]

/-- The step for a command presented as its word runs it. -/
theorem step_encode {s : State} {i : Instr} (hi : i.wf = true) {rest : List Event}
    (h : s.input = .cmd (encode i) :: rest) : step s = exec i { s with input := rest } := by
  rw [step_cmd h, decode_encode hi]

/-- The `SYM`s of a list of indices of the alphabet do what the encoder's loop does. -/
theorem Simulates.run_syms {s₀ : State} {rest : List Event} (ks : List Arg) :
    ∀ {s : State} {e : Encoder}, Simulates s₀ s e → (∀ k ∈ ks, k.toNat < s₀.cts.toNat) →
      s.input = (ks.map fun k => Event.cmd (encode (.sym k))) ++ rest →
      ∃ t, (∀ n, Host.Core.run Sys2Proof.core (ks.length + n) s = Host.Core.run Sys2Proof.core n t) ∧
        t.input = rest ∧ Simulates s₀ t ((ks.map fun k => k.toNat).foldl (Encoder.turn s₀.mcs.toNat) e) := by
  induction ks with
  | nil => exact fun {s e} h _ hinput => ⟨s, fun n => by rw [List.length_nil, Nat.zero_add], hinput, h⟩
  | cons k ks ih =>
    intro s e h hks hinput
    obtain ⟨hk, hks⟩ := List.forall_mem_cons.1 hks
    obtain ⟨t, hexec, htinput, ht⟩ := (h.withInput _).execSym hk
    obtain ⟨u, hrun, huinput, hu⟩ := ih ht hks htinput
    have hstep : step s = .next t := (step_encode rfl hinput).trans hexec
    refine ⟨u, fun n => ?_, huinput, hu⟩
    rw [List.length_cons, Nat.add_right_comm, run_succ Sys2Proof.core hstep, hrun]

/-- The encoder after the indices `ks`. -/
def encoderAfter (m : Nat) (ks : List Nat) : Encoder := ks.foldl (Encoder.turn m) (Encoder.init m)

theorem finish_encoderAfter (m : Nat) (ks : List Nat) : (encoderAfter m ks).finish m = frameCodes m ks := rfl

theorem step_start {s : State} (hidle : s.st = .idle) {cts : Arg} (hcts : IsTableSize cts) {rest : List Event}
    (hinput : s.input = .cmd (encode (.start cts)) :: rest) :
    step s = .next (beginFrame cts { s with input := rest }) := by
  rw [step_encode rfl hinput]
  simp [exec, execStart, hidle, (ctsIsLegal_iff cts).2 hcts]

theorem step_end {s : State} (hactive : s.st = .active) {rest : List Event}
    (hinput : s.input = .cmd (encode .endCmd) :: rest) : step s = .next (finishFrame { s with input := rest }) := by
  rw [step_encode rfl hinput]
  simp [exec, execEnd, hactive]

/-- A frame's run ends in its `END`, from a state in which the machine holds what the encoder holds after the indices. -/
theorem run_frame {s : State} {cts : Arg} {ks : List Arg} {rest : List Event} (hinv : Inv s) (hidle : s.st = .idle)
    (hcts : IsTableSize cts) (hks : ∀ k ∈ ks, k.toNat < cts.toNat) (hinput : s.input = encodeEvents cts ks ++ rest) :
    ∃ t, Host.Core.run Sys2Proof.core (ks.length + 2) s = .next (finishFrame t) ∧ t.input = rest ∧
      Simulates (openFrame cts s) t (encoderAfter (minCodeSize cts) (ks.map fun k => k.toNat)) := by
  have hinput : s.input = .cmd (encode (.start cts)) ::
      ((ks.map fun k => Event.cmd (encode (.sym k))) ++ .cmd (encode .endCmd) :: rest) := by
    simpa [encodeEvents] using hinput
  have hstart := step_start hidle hcts hinput
  have hopened := (simulates_beginFrame hinv hidle hcts).withInput
    ((ks.map fun k => Event.cmd (encode (.sym k))) ++ .cmd (encode .endCmd) :: rest)
  obtain ⟨t, hrun, htinput, ht⟩ := hopened.run_syms ks hks rfl
  have hend := step_end ht.active htinput
  refine ⟨{ t with input := rest }, ?_, rfl, ?_⟩
  · calc Host.Core.run Sys2Proof.core (ks.length + 2) s
      _ = Host.Core.run Sys2Proof.core (ks.length + 1) _ := run_succ Sys2Proof.core hstart _
      _ = Host.Core.run Sys2Proof.core 1 t := hrun 1
      _ = .next (finishFrame { t with input := rest }) := run_succ Sys2Proof.core hend 0
  · rw [← openFrame_mcs_toNat hcts s, encoderAfter]
    rw [← openFrame_mcs_toNat hcts s] at ht
    exact ht.withInput rest

/-- No bits of value 0 before a stream change none of its bytes. -/
theorem frameBytes_nothing_pending (codes : List (Nat × Nat)) : frameBytes ((0, 0) :: codes) = frameBytes codes := by
  simp [frameBytes, streamBits, streamValue]

/-- `END` closes the encoder's codes with those of its last line (40_frame_control.md R103, 41_symbol.md R133). -/
theorem Simulates.finish_eq {s₀ s : State} {e : Encoder} (h : Simulates s₀ s e) :
    e.finish s₀.mcs.toNat = e.codes ++ endCodes s := by
  rw [Encoder.finish, h.phraseCode_eq, endCodes, eoiCode, h.mcs, h.cw, List.append_assoc]

/-- A frame finished from a state of its run delivers the encoder's codes. -/
theorem Simulates.finishFrame_out {s₀ s : State} {e : Encoder} (h : Simulates s₀ s e)
    (hpending : pending s₀ = (0, 0)) : (finishFrame s).out = s₀.out ++ frameBytes (e.finish s₀.mcs.toNat) := by
  have hwidths := h.configured.widthsHold h.inv.accWithin
  rw [finishFrame_eq hwidths, h.finish_eq, ← frameBytes_nothing_pending (e.codes ++ endCodes s), ← hpending]
  exact frameBytes_after_emitted h.emitted (streamBits_endCodes_pos hwidths)

/-- The phrase-level encoder's bytes are delivered by every frame (41_symbol.md R133), which ends in `IDLE` with an empty
packer. -/
theorem frame_delivers {s : State} {cts : Arg} {n : Nat} {ks : List Arg} {rest : List Event} (hinv : Inv s)
    (hidle : s.st = .idle) (hn1 : 1 ≤ n) (hn8 : n ≤ 8) (hcts : cts.toNat = 2 ^ n)
    (hks : ∀ k ∈ ks, k.toNat < cts.toNat) (hinput : s.input = encodeEvents cts ks ++ rest) :
    ∃ t, Host.Core.run Sys2Proof.core (ks.length + 2) s = .next t ∧
      t.out = s.out ++ frameBytes (frameCodes (max 2 n) (ks.map fun k => k.toNat)) ∧
      t.st = .idle ∧ t.errc = s.errc ∧ t.acc = 0 ∧ t.nb = 0 ∧ t.mcs.toNat = max 2 n ∧ t.input = rest := by
  have hsize : IsTableSize cts := ⟨n, hn1, hn8, hcts⟩
  obtain ⟨t, hrun, hrest, hsim⟩ := run_frame hinv hidle hsize hks hinput
  have hmcs := openFrame_mcs_toNat hsize s
  have hout := hsim.finishFrame_out rfl
  obtain ⟨hacc, hnb⟩ := hsim.inv.finishFrame_packer hsim.active
  have herrc : (finishFrame t).errc = s.errc := by
    rw [finishFrame_errc, hsim.inv.errc_eq_noFault (by simp [hsim.active]), hinv.errc_eq_noFault (by simp [hidle])]
  rw [hmcs, finish_encoderAfter, minCodeSize_of_two_pow hcts] at hout
  refine ⟨_, hrun, hout, rfl, herrc, hacc, hnb, ?_, ?_⟩
  · rw [finishFrame_mcs, hsim.mcs, hmcs, minCodeSize_of_two_pow hcts]
  · rw [finishFrame_input, hrest]

end Sys2Proof.Reference
end

section
/-! The shape of a frame's codes (30_encoding.md R78 to R83). -/

namespace Sys2Proof.Reference

open Sys2Proof.Machine

/-- After an index the current phrase is not empty. -/
theorem encoderAfter_p_ne_nil (m : Nat) {ks : List Nat} (h : ks ≠ []) : (encoderAfter m ks).p ≠ [] := by
  obtain ⟨ks, k, rfl⟩ := (List.eq_nil_or_concat' ks).resolve_left h
  rw [encoderAfter, List.foldl_concat]
  exact Encoder.turn_p_ne_nil m k _

/-- The codes of the encoder after a frame's indices, closed by its last line, have the shape of a frame. -/
theorem Simulates.frameCodes_shape {s₀ s : State} {ks : List Nat} (h : Simulates s₀ s (encoderAfter s₀.mcs.toNat ks)) :
    ∃ mid w, frameCodes s₀.mcs.toNat ks = framed s₀.mcs.toNat mid w ∧
      FrameShape s₀.cts.toNat s₀.mcs.toNat ks mid w := by
  have hwidths := h.configured.widthsHold h.inv.accWithin
  have hm2 := h.mcs ▸ hwidths.mcsLow
  have hm8 := h.mcs ▸ hwidths.mcsHigh
  have hcts : s₀.cts.toNat ≤ 2 ^ s₀.mcs.toNat := h.cts ▸ h.mcs ▸ h.configured.ctsWithin
  by_cases hks : ks = []
  · subst hks
    refine ⟨[], _, rfl, FramePrefix.opened.frameShape hm2 hm8 hcts (fun pre p hsplit => ?_) (fun _ => rfl) (absurd rfl)⟩
    obtain ⟨-, hp⟩ := List.append_inj' (s₁ := []) hsplit rfl
    exact congrArg Prod.snd (List.singleton_inj.1 hp)
  · have hpv : s.pv = true := by
      by_contra hpv
      refine encoderAfter_p_ne_nil s₀.mcs.toNat hks ?_
      rw [← h.current, currentPhrase, if_neg hpv]
    obtain ⟨mid, hmid⟩ := h.codes.begins
    have hphrase := h.isPhraseAt hpv
    have hcodes := h.codes.phrase hphrase
    rw [hmid] at hcodes
    refine ⟨mid ++ [(s.cur.toNat, s.cw.toNat)], s.cw.toNat, ?_, hcodes.frameShape hm2 hm8 hcts (fun pre p hsplit => ?_)
      (fun hnil => absurd hnil hks) (fun _ => ⟨mid, _, rfl, hphrase.ne_clear hcts⟩)⟩
    · rw [← finish_encoderAfter, h.finish_eq, hmid, endCodes, if_pos hpv, eoiCode, h.mcs, framed]
      simp
    · obtain ⟨-, hp⟩ := List.append_inj' (s₁ := _ :: mid) hsplit rfl
      exact congrArg Prod.snd (List.singleton_inj.1 hp)

/-- Settles O54: the bytes are the encoder's (`frame_delivers`), and the run that delivers them carries the shape of the
codes along. -/
theorem frameCodesHaveTheirShape : Obligations.FrameCodesHaveTheirShape := by
  intro s cts n ks rest hinv hidle hn1 hn8 hcts hks hinput
  have hsize : IsTableSize cts := ⟨n, hn1, hn8, hcts⟩
  obtain ⟨u, hrun, hout, -⟩ := frame_delivers hinv hidle hn1 hn8 hcts hks hinput
  obtain ⟨t, -, -, hsim⟩ := run_frame hinv hidle hsize hks hinput
  rw [← openFrame_mcs_toNat hsize s] at hsim
  have hshape := hsim.frameCodes_shape
  rw [openFrame_mcs_toNat hsize s, minCodeSize_of_two_pow hcts] at hshape
  exact ⟨⟨u, hrun, hout⟩, hshape⟩

end Sys2Proof.Reference
end

section
/-! `START` and `END`, an equation for each value of `ST` (40_frame_control.md R100, R103; 60_exceptions.md R156). -/

namespace Sys2Proof.Machine

/-- 60_exceptions.md R158: in `ERR` every command is ignored. -/
theorem exec_of_err {s : State} (h : s.st = .err) (i : Instr) : exec i s = .next s := by
  cases i with
  | start cts => simp [exec, execStart, h]
  | sym k => simp [exec, execSym, h]
  | endCmd => simp [exec, execEnd, h]
  | _ => rw [exec_reserved rfl, takeIllegal_err h]

section
variable {s : State}

theorem exec_start_of_active (h : s.st = .active) (cts : Arg) : exec (.start cts) s = .next (raiseFault .protocol s) := by
  simp [exec, execStart, h]

theorem exec_start_of_not_isTableSize (h : s.st = .idle) {cts : Arg} (hcts : ¬ IsTableSize cts) :
    exec (.start cts) s = .next (raiseFault .badCts s) := by
  simp [exec, execStart, h, ctsIsLegal_iff, hcts]

theorem exec_start_of_isTableSize (h : s.st = .idle) {cts : Arg} (hcts : IsTableSize cts) :
    exec (.start cts) s = .next (beginFrame cts s) := by
  simp [exec, execStart, h, ctsIsLegal_iff, hcts]

theorem exec_end_of_idle (h : s.st = .idle) : exec .endCmd s = .next (raiseFault .protocol s) := by
  simp [exec, execEnd, h]

theorem exec_end_of_active (h : s.st = .active) : exec .endCmd s = .next (finishFrame s) := by
  simp [exec, execEnd, h]

end

end Sys2Proof.Machine
end

section
/-! The frame `START` opens (40_frame_control.md R100). -/

namespace Sys2Proof.Machine

open Sys2Proof.Reference

section
variable {cts : Arg} (h : IsTableSize cts) (s : State)
include h

/-- The CLEAR code goes out from an empty packer. -/
theorem emitted_beginFrame :
    Emitted [(2 ^ minCodeSize cts, minCodeSize cts + 1)] (openFrame cts s) (beginFrame cts s) := by
  have hclr : Emitted [(clrCode (openFrame cts s).mcs, (openFrame cts s).cw.toNat)] (openFrame cts s) (beginFrame cts s) :=
    emitted_emit (configured_openFrame h s).clrFits Nat.one_pos
  rwa [clrCode, openFrame_mcs_toNat h, openFrame_cw_toNat h] at hclr

/-- `OUT`, `ACC` and `NB` after the CLEAR code. -/
theorem beginFrame_packer :
    (beginFrame cts s).out = s.out ++ plainBytes (2 ^ minCodeSize cts) ((minCodeSize cts + 1) / 8) ∧
    (beginFrame cts s).acc.toNat = 2 ^ minCodeSize cts / 2 ^ (8 * ((minCodeSize cts + 1) / 8)) ∧
    (beginFrame cts s).nb.toNat = (minCodeSize cts + 1) % 8 := by
  obtain ⟨hout, hacc, hnb⟩ := emitted_beginFrame h s
  simp only [pending, openFrame_acc, openFrame_nb, streamValue, streamBits] at hout hacc hnb
  exact ⟨by simpa using hout, by simpa using hacc, by simpa using hnb⟩

theorem widthsHold_beginFrame : WidthsHold (beginFrame cts s) :=
  have hopen := configured_openFrame h s
  (hopen.emit _ _).widthsHold (emit_accWithin hopen.clrFits Nat.one_pos)

end

/-- Settles O21: the registers are those of `openFrame`; how many bits CLEAR has decides whether a byte leaves. -/
theorem startBeginsAFrame : Obligations.StartBeginsAFrame := by
  intro s cts
  refine ⟨fun hst => exec_of_err hst _, fun hst => exec_start_of_active hst cts,
    fun hst hcts => exec_start_of_not_isTableSize hst hcts, fun n hst hn1 hn8 hn => ?_⟩
  have hcts : IsTableSize cts := ⟨n, hn1, hn8, hn⟩
  have hm := minCodeSize_of_two_pow hn
  have hmcs := openFrame_mcs_toNat hcts s
  have hcw := openFrame_cw_toNat hcts s
  have hnext := openFrame_next_toNat hcts s
  obtain ⟨hout, hacc, hnb⟩ := beginFrame_packer hcts s
  rw [hm] at hmcs hcw hnext hout hacc hnb
  refine ⟨beginFrame cts s, exec_start_of_isTableSize hst hcts, rfl, hmcs, hcw, hnext, rfl, rfl, rfl, rfl, rfl, rfl,
    fun hn6 => ?_, ?_, ?_⟩
  · have hbytes : (max 2 n + 1) / 8 = 0 := by omega
    rw [hbytes] at hout hacc
    refine ⟨?_, ?_, ?_⟩
    · simpa [plainBytes] using hout
    · simpa using hacc
    · omega
  · rintro rfl
    exact ⟨hout, BitVec.eq_of_toNat_eq hacc, BitVec.eq_of_toNat_eq hnb⟩
  · rintro rfl
    exact ⟨hout, BitVec.eq_of_toNat_eq hacc, BitVec.eq_of_toNat_eq hnb⟩

theorem execStart_keeps {cts : Arg} {s t : State} (h : execStart cts s = .next t) :
    t.cur = s.cur ∧ t.dict = s.dict ∧ t.input = s.input := by
  obtain ⟨-, rfl⟩ | ⟨-, rfl⟩ | ⟨-, -, rfl⟩ | ⟨-, -, rfl⟩ := execStart_cases h <;> exact ⟨rfl, rfl, rfl⟩

/-- Settles O22. -/
theorem startFrame : Obligations.StartFrame := by
  intro cts s t h
  obtain ⟨hcur, hdict, hinput⟩ := execStart_keeps h
  obtain ⟨bs, hout⟩ := execStart_out_prefix h
  refine ⟨hcur, fun c => by rw [hdict], hdict, hinput, ⟨bs, hout.symm⟩, ?_⟩
  obtain ⟨hst, rfl⟩ | ⟨hst, rfl⟩ | ⟨hst, hcts, rfl⟩ | ⟨hst, -, rfl⟩ := execStart_cases h
  · exact .inr (.inr ⟨hst, rfl⟩)
  · exact .inr (.inl ⟨by simp [hst], rfl⟩)
  · exact .inl ⟨hst, hcts, rfl, rfl⟩
  · exact .inr (.inl ⟨by simp [hst], rfl⟩)

end Sys2Proof.Machine
end

section
/-! The frame `END` finishes (40_frame_control.md R103 to R105). -/

namespace Sys2Proof.Machine

open Sys2Proof.Reference

/-- Settles O29. -/
theorem endFinishesTheFrame : Obligations.EndFinishesTheFrame := by
  refine fun s => ⟨fun hst => exec_of_err hst _, fun hst => exec_end_of_idle hst, fun hst hwidths => ?_⟩
  rw [exec_end_of_active hst, finishFrame_eq hwidths]
  rfl

/-- Settles O30: `END` closes the stream that `START` began from an empty packer with CLEAR. -/
theorem emptyFrameIsClearThenEoi : Obligations.EmptyFrameIsClearThenEoi := by
  intro s cts n hst hn1 hn8 hn
  have hcts : IsTableSize cts := ⟨n, hn1, hn8, hn⟩
  have hwidths := widthsHold_beginFrame hcts s
  have heoi : endCodes (beginFrame cts s) = [(2 ^ minCodeSize cts + 1, minCodeSize cts + 1)] := by
    rw [← openFrame_cw_toNat hcts s, ← openFrame_mcs_toNat hcts s]
    rfl
  refine ⟨_, _, exec_start_of_isTableSize hst hcts, exec_end_of_active rfl, rfl, ?_⟩
  rw [← minCodeSize_of_two_pow hn, finishFrame_eq hwidths]
  calc (beginFrame cts s).out ++ frameBytes (pending (beginFrame cts s) :: endCodes (beginFrame cts s))
    _ = s.out ++ frameBytes ((0, 0) :: (2 ^ minCodeSize cts, minCodeSize cts + 1) :: endCodes (beginFrame cts s)) :=
      frameBytes_after_emitted (emitted_beginFrame hcts s) (streamBits_endCodes_pos hwidths)
    _ = _ := by rw [frameBytes_nothing_pending, heoi]

theorem execEnd_keeps {s t : State} (h : execEnd s = .next t) :
    t.cts = s.cts ∧ t.mcs = s.mcs ∧ t.cw = s.cw ∧ t.next = s.next ∧ t.cur = s.cur ∧ t.dict = s.dict ∧
      t.input = s.input := by
  obtain ⟨-, rfl⟩ | ⟨-, rfl⟩ | ⟨-, rfl⟩ := execEnd_cases h <;> simp

/-- Settles O31. -/
theorem endFrame : Obligations.EndFrame := by
  intro s t h
  obtain ⟨hcts, hmcs, hcw, hnext, hcur, hdict, hinput⟩ := execEnd_keeps h
  obtain ⟨bs, hout⟩ := execEnd_out_prefix h
  refine ⟨hcts, hmcs, hcw, hnext, hcur, fun c => by rw [hdict], hdict, hinput, ⟨bs, hout.symm⟩, ?_⟩
  obtain ⟨-, rfl⟩ | ⟨hst, rfl⟩ | ⟨-, rfl⟩ := execEnd_cases h
  · exact .inl rfl
  · exact .inr ⟨by simp [hst], rfl⟩
  · exact .inl (finishFrame_errc s)

/-- 42_bit_packing.md R144: at most 7 bits were pending, and each of `END`'s codes, of which there are at most two, has at
most 12. -/
theorem streamBits_end_le {s : State} (h : WidthsHold s) : streamBits (pending s :: endCodes s) ≤ 31 := by
  have hnb := s.nb.isLt
  have hcw := h.cwHigh
  cases hpv : s.pv with
  | false =>
    simp [pending, endCodes, hpv, streamBits]
    omega
  | true =>
    simp [pending, endCodes, hpv, streamBits]
    omega

/-- Settles O32: the stream `END` closes fills one to four bytes. -/
theorem endDeliversAMarkedByte : Obligations.EndDeliversAMarkedByte := by
  intro s t hinv hactive hexec
  obtain rfl := Host.Outcome.next.inj ((exec_end_of_active hactive).symm.trans hexec)
  have hwidths := (hinv.activeConfigured hactive).widthsHold hinv.accWithin
  have hle := streamBits_end_le hwidths
  have hpos : 0 < streamBits (pending s :: endCodes s) := Nat.add_pos_right _ (streamBits_endCodes_pos hwidths)
  obtain ⟨n, hn⟩ : ∃ n, (streamBits (pending s :: endCodes s) + 7) / 8 = n + 1 := Nat.exists_eq_add_one.2 (by omega)
  refine ⟨plainBytes (streamValue (pending s :: endCodes s)) n, streamByte (streamValue (pending s :: endCodes s)) n, ?_,
    fun _ => plainBytes_last, ?_⟩
  · rw [finishFrame_eq hwidths, List.append_assoc, ← frameBytes_eq _ hn]
  · rw [plainBytes_length]
    omega

end Sys2Proof.Machine
end

section
/-! The transitions of `ST` (40_frame_control.md R107), command by command. -/

namespace Sys2Proof.Machine

theorem execStart_st {cts : Arg} {s t : State} (h : execStart cts s = .next t) :
    (s.st = .idle → IsTableSize cts → t.st = .active) ∧
    (s.st = .idle → ¬ IsTableSize cts → t.st = .err ∧ t.errc = .badCts) ∧
    (s.st = .active → t.st = .err ∧ t.errc = .protocol) := by
  obtain ⟨hst, rfl⟩ | ⟨hst, rfl⟩ | ⟨hst, hcts, rfl⟩ | ⟨hst, hcts, rfl⟩ := execStart_cases h
  · simp [hst]
  · simp [hst]
  · exact ⟨fun _ _ => rfl, fun _ hbad => absurd hcts hbad, by simp [hst]⟩
  · simp [hst, hcts]

theorem execSym_st {k : Arg} {s t : State} (h : execSym k s = .next t) :
    (s.st = .idle → t.st = .err ∧ t.errc = .protocol) ∧
    (s.st = .active → k.toNat < s.cts.toNat → t.st = .active) ∧
    (s.st = .active → s.cts.toNat ≤ k.toNat → t.st = .err ∧ t.errc = .badIndex) := by
  obtain ⟨hst, rfl⟩ | ⟨hst, rfl⟩ | ⟨hst, hk, rfl⟩ | ⟨hst, hk, -, rfl⟩ | ⟨hst, hk, -, c, -, rfl⟩ |
    ⟨hst, hk, -, -, -, rfl⟩ := execSym_cases h
  · simp [hst]
  · simp [hst]
  · simp [hst, hk]
  · simp [hst, hk]
  · simp [hst, hk]
  · simp [hst, hk]

theorem execEnd_st {s t : State} (h : execEnd s = .next t) :
    (s.st = .idle → t.st = .err ∧ t.errc = .protocol) ∧ (s.st = .active → t.st = .idle) := by
  obtain ⟨hst, rfl⟩ | ⟨hst, rfl⟩ | ⟨hst, rfl⟩ := execEnd_cases h <;> simp [hst]

theorem exec_reserved_st {i : Instr} (hi : isReserved i = true) {s t : State} (hst : s.st ≠ .err)
    (h : exec i s = .next t) : t.st = .err ∧ t.errc = .illegalCmd := by
  rw [exec_reserved hi, takeIllegal_of_ne hst] at h
  obtain rfl := Host.Outcome.next.inj h
  exact ⟨rfl, rfl⟩

/-- The rows of the table for a command. -/
theorem exec_st {i : Instr} {s t : State} (h : exec i s = .next t) :
    (s.st = .err → t = s) ∧
    (s.st ≠ .err → isReserved i = true → t.st = .err ∧ t.errc = .illegalCmd) ∧
    (∀ cts, i = .start cts →
      (s.st = .idle → IsTableSize cts → t.st = .active) ∧
      (s.st = .idle → ¬ IsTableSize cts → t.st = .err ∧ t.errc = .badCts) ∧
      (s.st = .active → t.st = .err ∧ t.errc = .protocol)) ∧
    (∀ k, i = .sym k →
      (s.st = .idle → t.st = .err ∧ t.errc = .protocol) ∧
      (s.st = .active → k.toNat < s.cts.toNat → t.st = .active) ∧
      (s.st = .active → s.cts.toNat ≤ k.toNat → t.st = .err ∧ t.errc = .badIndex)) ∧
    (i = .endCmd → (s.st = .idle → t.st = .err ∧ t.errc = .protocol) ∧ (s.st = .active → t.st = .idle)) := by
  refine ⟨fun hst => ?_, fun hst hres => exec_reserved_st hres hst h, ?_, ?_, ?_⟩
  · exact Host.Outcome.next.inj (h.symm.trans (exec_of_err hst i))
  · rintro cts rfl
    exact execStart_st h
  · rintro k rfl
    exact execSym_st h
  · rintro rfl
    exact execEnd_st h

/-- Settles O40, by the event presented. -/
theorem stTransitionTable : Obligations.StTransitionTable := by
  intro s t e rest hinput hstep
  cases e with
  | reset =>
    obtain rfl := Host.Outcome.next.inj ((step_reset hinput).symm.trans hstep)
    exact ⟨fun _ => ⟨rfl, rfl⟩, nofun⟩
  | cmd w =>
    refine ⟨nofun, ?_⟩
    rintro _ ⟨⟩
    exact exec_st ((step_cmd hinput).symm.trans hstep)

end Sys2Proof.Machine
end

section
/-! A frame does not depend on what came before it (40_frame_control.md R101). -/

namespace Sys2Proof.Reference

/-- Settles O53: both runs deliver the bytes of the phrase-level encoder, which knows the size and the indices only. -/
theorem frameIsIndependentOfHistory : Obligations.FrameIsIndependentOfHistory := by
  rintro s s' cts ks rest rest' hinv hinv' hidle hidle' ⟨n, hn1, hn8, hcts⟩ hks hinput hinput'
  obtain ⟨t, hrun, hout, -, -, -, -, hmcs, -⟩ := frame_delivers hinv hidle hn1 hn8 hcts hks hinput
  obtain ⟨t', hrun', hout', -, -, -, -, hmcs', -⟩ := frame_delivers hinv' hidle' hn1 hn8 hcts hks hinput'
  exact ⟨t, t', _, hrun, hrun', hout, hout', BitVec.eq_of_toNat_eq (hmcs.trans hmcs'.symm)⟩

end Sys2Proof.Reference
end

section
/-! `SYM`, an equation for each of the three branches of 41_symbol.md R120. -/

namespace Sys2Proof.Machine

open Sys2Proof.Reference

section
variable {s : State} {k : Arg} (hst : s.st = .active) (hk : k.toNat < s.cts.toNat)
include hst hk

theorem exec_sym_of_active : exec (.sym k) s = acceptIndex k s := by
  simp [exec, execSym, hst, (indexIsLegal_iff k s.cts).2 hk]

theorem exec_sym_of_empty (hpv : s.pv = false) : exec (.sym k) s = .next (firstIndex k s) := by
  rw [exec_sym_of_active hst hk]
  simp [acceptIndex, hpv]

theorem exec_sym_of_match (hpv : s.pv = true) {c : Nat} (hc : dictLookup s.cur k.toNat s = some c) :
    exec (.sym k) s = .next (adoptMatch c s) := by
  rw [exec_sym_of_active hst hk]
  simp [acceptIndex, hpv, hc]

/-- A miss at a `NEXT` that is the address of a word (10_state.md R31). -/
theorem exec_sym_of_miss (hwidths : WidthsHold s) (hdict : s.dict.wf) (hpv : s.pv = true)
    (hmiss : ∀ c, ¬ HoldsPairAt s s.cur k.toNat c) : exec (.sym k) s = .next (missIndex k s) := by
  have hnone : dictLookup s.cur k.toNat s = none := by
    rwa [← not_exists, ← dictLookup_ne_none_iff hdict, not_not] at hmiss
  have hword : s.next.toNat < Config.dictWords := Nat.lt_succ_of_le hwidths.nextHigh
  rw [exec_sym_of_active hst hk]
  simp [acceptIndex, hpv, hnone, execMiss, hword]

end

/-- Settles O23. -/
theorem symTakesTheFirstIndex : Obligations.SymTakesTheFirstIndex := by
  intro s k hst hpv hk
  have hlit : literalCode k = BitVec.ofNat 12 k.toNat := by
    rw [← literalCode_toNat, BitVec.ofNat_toNat, BitVec.setWidth_eq]
  rw [exec_sym_of_empty hst hk hpv, firstIndex, hlit]
  rfl

/-- Settles O24: the lookup finds the one code of the pair, and that code stands for the extended phrase. -/
theorem symAdoptsAMatch : Obligations.SymAdoptsAMatch := by
  intro s k c hinv hst hpv hk hholds
  have hconf := hinv.activeConfigured hst
  have hlookup : dictLookup s.cur k.toNat s = some c := ((lookupFindsTheOneCode s s.cur k.toNat hinv).1 c).2 hholds
  exact ⟨exec_sym_of_match hst hk hpv hlookup, hholds.1,
    ((holdsPairAt_iff_phrase hconf (isPhraseCode_cur hconf hpv) k.toNat c).1 hholds).2⟩

end Sys2Proof.Machine
end

section
/-! The initial table, which holds no pair (41_symbol.md R126, R128). -/

namespace Sys2Proof.Machine

/-- Settles O39: no address is at `FIRST` or above and below `NEXT`. -/
theorem initialTableHoldsNoPair : Obligations.InitialTableHoldsNoPair := by
  intro s p k hnext
  rw [dictLookup, Option.map_eq_none_iff, List.find?_eq_none]
  intro e _ he
  obtain ⟨hfirst, hbelow, -⟩ := (holdsPair_iff ..).1 he
  omega

theorem not_holdsPairAt_of_initialTable {s : State} (hnext : s.next.toNat = firstCode s.mcs) (p : Code) (k c : Nat) :
    ¬ HoldsPairAt s p k c := by
  rintro ⟨hfirst, hbelow, -⟩
  omega

end Sys2Proof.Machine
end

section
/-! The miss of `SYM` as the obligations state it (41_symbol.md R123 to R127). -/

namespace Sys2Proof.Machine

open Sys2Proof.Reference

/-- 00_scope.md R6: under the bounds of a frame's widths an index of the alphabet fits the field `sym`. -/
theorem WidthsHold.index_lt {s : State} (h : WidthsHold s) (hcts : s.cts.toNat ≤ 2 ^ s.mcs.toNat) {k : Arg}
    (hk : k.toNat < s.cts.toNat) : k.toNat < 256 := by
  have hpow : 2 ^ s.mcs.toNat ≤ 2 ^ 8 := Nat.pow_le_pow_right (by decide) h.mcsHigh
  omega

/-- 41_symbol.md R127: after a miss the current phrase is the one index. -/
theorem currentPhrase_missIndex {s : State} {k : Arg} (hpv : s.pv = true) (hk : k.toNat < 2 ^ s.mcs.toNat) :
    currentPhrase (missIndex k s) = [k.toNat] := by
  have hlit : k.toNat < 2 ^ (missIndex k s).mcs.toNat := by rwa [missIndex_mcs]
  rw [currentPhrase, missIndex_pv, if_pos hpv, missIndex_cur, literalCode_toNat, phrase_literal hlit]

/-- Settles O25, from the miss field by field. -/
theorem symAddsAnEntryOnAMiss : Obligations.SymAddsAnEntryOnAMiss := by
  intro s k hwidths hdict hcts hst hpv hk hmiss
  obtain ⟨hcts', hmcs', hst', herrc', hinput', hpv', hcur', hdict', hgrown, hcleared⟩ := missIndex_fields k hwidths hpv
  refine ⟨_, exec_sym_of_miss hst hk hwidths hdict hpv hmiss, hcts', hmcs', hst'.trans hst, herrc', hinput', hpv', hcur',
    currentPhrase_missIndex hpv (Nat.lt_of_lt_of_le hk hcts), ⟨⟨s.cur, symField k⟩, ?_, rfl, ?_⟩, fun c hc => ?_,
    hgrown, hcleared⟩
  · rw [hdict', Memory.read_write_same]
  · exact symField_toNat (hwidths.index_lt hcts hk)
  · rw [hdict', Memory.read_write_other _ _ hc]

/-- Settles O27: the clear leaves the initial table, and between steps no code of the table reaches 4095. -/
theorem theFullTableIsCleared : Obligations.TheFullTableIsCleared := by
  refine ⟨fun s k hwidths hdict _ hst hpv hk hmiss => ?_, fun s hinv hst => ?_⟩
  · obtain ⟨-, hmcs', -, -, -, -, -, -, hgrown, hcleared⟩ := missIndex_fields k hwidths hpv
    refine ⟨_, exec_sym_of_miss hst hk hwidths hdict hpv hmiss, fun hnext => (hgrown hnext).2.1, fun hnext => ?_⟩
    obtain ⟨hcw, hne, hemitted, hnext', hcw'⟩ := hcleared hnext
    exact ⟨hcw, hne, hemitted, hnext', hcw', not_holdsPairAt_of_initialTable (by rw [hnext', hmcs'])⟩
  · have hconf := hinv.activeConfigured hst
    have hnext := hconf.nextHigh
    obtain ⟨_, _, _, hcts, _, hle, _, hhigh, _⟩ := hconf.pows
    refine ⟨fun hpv => ?_, fun p j c ⟨_, hbelow, _⟩ => by omega⟩
    obtain hlit | ⟨_, hbelow⟩ := hconf.curIsEntry hpv <;> omega

end Sys2Proof.Machine
end

section
/-! What `SYM` leaves unchanged (41_symbol.md R120). -/

namespace Sys2Proof.Machine

/-- The condition of a miss, as `SYM` tests it (41_symbol.md R120, case (C)). -/
def Misses (k : Arg) (s : State) : Prop :=
  s.st = .active ∧ k.toNat < s.cts.toNat ∧ s.pv = true ∧ dictLookup s.cur k.toNat s = none

/-- A `SYM` that does not miss writes none of the table, the packer and `OUT`. -/
theorem execSym_misses_or_keeps {k : Arg} {s t : State} (h : execSym k s = .next t) :
    (Misses k s ∧ t = missIndex k s) ∨
    (¬ Misses k s ∧ t.dict = s.dict ∧ t.out = s.out ∧ t.next = s.next ∧ t.cw = s.cw ∧ t.acc = s.acc ∧ t.nb = s.nb) := by
  obtain ⟨hst, rfl⟩ | ⟨hst, rfl⟩ | ⟨-, hk, rfl⟩ | ⟨-, -, hpv, rfl⟩ | ⟨-, -, -, c, hc, rfl⟩ |
    ⟨hst, hk, hpv, hnone, -, rfl⟩ := execSym_cases h
  · exact .inr ⟨by simp [Misses, hst], rfl, rfl, rfl, rfl, rfl, rfl⟩
  · exact .inr ⟨by simp [Misses, hst], rfl, rfl, rfl, rfl, rfl, rfl⟩
  · exact .inr ⟨by simp [Misses, hk], rfl, rfl, rfl, rfl, rfl, rfl⟩
  · exact .inr ⟨by simp [Misses, hpv], rfl, rfl, rfl, rfl, rfl, rfl⟩
  · exact .inr ⟨by simp [Misses, hc], rfl, rfl, rfl, rfl, rfl, rfl⟩
  · exact .inl ⟨⟨hst, hk, hpv, hnone⟩, rfl⟩

/-- `ST` and `ERRC` change by a fault only, which changes nothing else (60_exceptions.md R157); `PV` is only ever set. -/
theorem execSym_status {k : Arg} {s t : State} (h : execSym k s = .next t) :
    ((t.st = s.st ∧ t.errc = s.errc) ∨ (s.st ≠ .err ∧ t = faulted s t.errc)) ∧
    (t.pv = s.pv ∨ (s.st = .active ∧ t.pv = true)) := by
  obtain ⟨-, rfl⟩ | ⟨hst, rfl⟩ | ⟨hst, -, rfl⟩ | ⟨hst, -, -, rfl⟩ | ⟨-, -, -, c, -, rfl⟩ |
    ⟨-, -, -, -, -, rfl⟩ := execSym_cases h
  · exact ⟨.inl ⟨rfl, rfl⟩, .inl rfl⟩
  · exact ⟨.inr ⟨by simp [hst], rfl⟩, .inl rfl⟩
  · exact ⟨.inr ⟨by simp [hst], rfl⟩, .inl rfl⟩
  · exact ⟨.inl ⟨rfl, rfl⟩, .inr ⟨hst, rfl⟩⟩
  · exact ⟨.inl ⟨rfl, rfl⟩, .inl rfl⟩
  · exact ⟨.inl ⟨missIndex_st k s, missIndex_errc k s⟩, .inl (missIndex_pv k s)⟩

theorem execSym_input {k : Arg} {s t : State} (h : execSym k s = .next t) : t.input = s.input := by
  obtain ⟨-, rfl⟩ | ⟨-, rfl⟩ | ⟨-, -, rfl⟩ | ⟨-, -, -, rfl⟩ | ⟨-, -, -, c, -, rfl⟩ | ⟨-, -, -, -, -, rfl⟩ :=
    execSym_cases h <;> simp

/-- Settles O28: the one store of `SYM` is the miss's, at `NEXT`. -/
theorem symFrame : Obligations.SymFrame := by
  intro k s t h
  obtain ⟨hcts, hmcs⟩ := execSym_configuration h
  obtain ⟨bs, hout⟩ := execSym_out_prefix h
  obtain ⟨hstatus, hpv⟩ := execSym_status h
  refine ⟨hcts, hmcs, execSym_input h, ⟨bs, hout.symm⟩, hstatus, hpv, ?_⟩
  obtain ⟨hmiss, rfl⟩ | ⟨hno, hkeeps⟩ := execSym_misses_or_keeps h
  · exact ⟨fun _ c hc => by rw [missIndex_dict, Memory.read_write_other _ _ hc], fun hno => absurd hmiss hno⟩
  · exact ⟨fun hmiss => absurd hmiss hno, fun _ => hkeeps⟩

end Sys2Proof.Machine
end

section
/-! The width of a frame's codes (41_symbol.md R125). -/

namespace Sys2Proof.Machine

/-- In a frame only a miss writes `CW`. -/
theorem exec_misses_or_keeps_cw {i : Instr} {s t : State} (hst : s.st = .active) (h : exec i s = .next t) :
    (∃ k, i = .sym k ∧ Misses k s ∧ t = missIndex k s) ∨ t.cw = s.cw := by
  obtain ⟨cts, rfl, -⟩ | ⟨k, rfl, hsym⟩ | ⟨rfl, -⟩ | ⟨-, rfl⟩ := exec_cases h
  · obtain rfl := Host.Outcome.next.inj ((exec_start_of_active hst cts).symm.trans h)
    exact .inr rfl
  · obtain hmiss | ⟨-, -, -, -, hcw, -⟩ := execSym_misses_or_keeps hsym
    · exact .inl ⟨k, rfl, hmiss⟩
    · exact .inr hcw
  · obtain rfl := Host.Outcome.next.inj ((exec_end_of_active hst).symm.trans h)
    exact .inr (finishFrame_cw s)
  · rw [takeIllegal_of_ne (by simp [hst])]
    exact .inr rfl

/-- What a miss does to `CW`: it grows on the code `2^CW`, goes back on 4095, and is kept on every other code. -/
theorem missIndex_cw_cases {s : State} (k : Arg) (h : WidthsHold s) (hpv : s.pv = true) :
    (missIndex k s).cw.toNat ≤ 12 ∧
    (s.next.toNat = 2 ^ s.cw.toNat ∧ (missIndex k s).cw.toNat = s.cw.toNat + 1 ∨
      s.next.toNat = 4095 ∧ (missIndex k s).cw.toNat = s.mcs.toNat + 1 ∨
      (missIndex k s).cw = s.cw) := by
  obtain ⟨-, -, -, -, -, -, -, -, hgrown, hcleared⟩ := missIndex_fields k h hpv
  obtain hnext | hnext := Nat.lt_or_eq_of_le h.nextHigh
  · obtain ⟨-, -, hcw'⟩ := hgrown hnext
    obtain ⟨-, hle, -, -⟩ := width_bounds_after_growth h.cwHigh h.nextAboveHalf h.nextWithin hnext hcw'
    refine ⟨hle, ?_⟩
    split at hcw'
    · next hgrow => exact .inl ⟨hgrow, hcw'⟩
    · exact .inr (.inr (BitVec.eq_of_toNat_eq hcw'))
  · obtain ⟨-, -, -, -, hcw'⟩ := hcleared hnext
    have hm := h.mcsHigh
    exact ⟨by omega, .inr (.inl ⟨hnext, hcw'⟩)⟩

/-- 41_symbol.md R125: the codes `2^CW` a frame can give an entry; at width 12 it would be 4096. -/
theorem WidthsHold.next_eq_two_pow_iff {s : State} (h : WidthsHold s) :
    s.next.toNat = 2 ^ s.cw.toNat ↔ s.next.toNat ∈ [8, 16, 32, 64, 128, 256, 512, 1024, 2048] := by
  obtain ⟨hm, -, hlow, hhigh, hnext, habove, hwithin, -, -⟩ := h
  have hthree : 3 ≤ s.cw.toNat := by omega
  simp only [List.mem_cons, List.not_mem_nil, or_false]
  generalize s.cw.toNat = cw at *
  interval_cases cw <;> omega

/-- Settles O26. -/
theorem widthGrowsOnlyOnAMiss : Obligations.WidthGrowsOnlyOnAMiss := by
  refine ⟨fun i s t hwidths hdict hst h => ⟨?_, fun hne => ?_, ?_⟩, fun cts s t hst h hactive => ?_⟩
  · obtain ⟨k, rfl, ⟨-, -, hpv, -⟩, rfl⟩ | hcw := exec_misses_or_keeps_cw hst h
    · exact (missIndex_cw_cases k hwidths hpv).1
    · exact hcw ▸ hwidths.cwHigh
  · obtain ⟨k, rfl, ⟨-, hk, hpv, hnone⟩, rfl⟩ | hcw := exec_misses_or_keeps_cw hst h
    · obtain ⟨-, hgrow | hclear | hcw⟩ := missIndex_cw_cases k hwidths hpv
      · exact ⟨k, rfl, hk, hpv, not_holdsPairAt_of_dictLookup_none hdict hnone, .inl hgrow⟩
      · exact ⟨k, rfl, hk, hpv, not_holdsPairAt_of_dictLookup_none hdict hnone, .inr hclear⟩
      · exact absurd hcw hne
    · exact absurd hcw hne
  · rintro k rfl hk hpv hmiss
    obtain rfl := Host.Outcome.next.inj ((exec_sym_of_miss hst hk hwidths hdict hpv hmiss).symm.trans h)
    refine ⟨hwidths.next_eq_two_pow_iff, fun hnext => ?_⟩
    have hroom : s.next.toNat < 4095 := by
      have hcode := hwidths.next_eq_two_pow_iff.1 hnext
      simp only [List.mem_cons, List.not_mem_nil, or_false] at hcode
      omega
    obtain ⟨-, -, -, -, -, -, -, -, hgrown, -⟩ := missIndex_fields k hwidths hpv
    obtain ⟨hemitted, -, hcw'⟩ := hgrown hroom
    exact ⟨hemitted, hcw'.trans (if_pos hnext)⟩
  · obtain ⟨hst', -⟩ | ⟨hst', -⟩ | ⟨-, hcts, rfl⟩ | ⟨-, -, rfl⟩ := execStart_cases h
    · exact absurd (hst.symm.trans hst') nofun
    · exact absurd (hst.symm.trans hst') nofun
    · exact (openFrame_cw_toNat hcts s).trans (congrArg (· + 1) (openFrame_mcs_toNat hcts s).symm)
    · exact absurd hactive nofun

end Sys2Proof.Machine
end

section
/-! A whole frame (41_symbol.md R133). -/

namespace Sys2Proof.Reference

/-- Settles O52: from `START` on the machine holds what the encoder holds (`Simulates`), index by index, and `END` closes
the two alike. -/
theorem frameDeliversTheEncodersBytes : Obligations.FrameDeliversTheEncodersBytes :=
  fun _ _ _ _ _ => frame_delivers

end Sys2Proof.Reference
end

section
/-! `EMIT` and `FLUSH` on their own (42_bit_packing.md R140 to R145). -/

namespace Sys2Proof.Machine

open Sys2Proof.Reference

/-- Settles O33. -/
theorem emitDeliversCompleteBytes : Obligations.EmitDeliversCompleteBytes :=
  fun _ _ _ hcode hacc => ⟨emitted_emit hcode hacc, emit_accWithin hcode hacc, rfl⟩

/-- Settles O35, by induction on the codes: what one `EMIT` leaves pending is what the next one begins with. -/
theorem packingClosedFormula : Obligations.PackingClosedFormula := by
  intro codes
  induction codes with
  | nil => exact fun s _ _ => Emitted.refl s
  | cons p rest ih =>
    intro s hfit hacc
    obtain ⟨hp, hrest⟩ := List.forall_mem_cons.1 hfit
    exact (emitted_emit hp hacc).trans (ih _ hrest (emit_accWithin hp hacc))

/-- 42_bit_packing.md R142, bits pending: they are delivered in a marked byte. -/
theorem flush_of_pending (before : Nat) {s : State} (h : s.nb ≠ 0) :
    flush before s = { s with out := s.out ++ [⟨BitVec.ofNat 8 s.acc.toNat, true⟩], acc := 0, nb := 0 } := by
  have hpos : 0 < s.nb.toNat := Nat.pos_of_ne_zero fun hzero => h (BitVec.eq_of_toNat_eq hzero)
  rw [flush, if_pos hpos, BitVec.ofNat_toNat]

/-- 42_bit_packing.md R142, nothing pending: of the bytes after the first `before`, the last one is marked. -/
theorem flush_of_empty (before : Nat) {s : State} (h : s.nb = 0) :
    flush before s = { s with out := s.out.take before ++ markLast (s.out.drop before) } := by
  simp [flush, h]

/-- Settles O34, case by case of R142. -/
theorem flushMarksTheLastByte : Obligations.FlushMarksTheLastByte := by
  refine ⟨fun s before hnb => flush_of_pending before hnb, fun s old bs b hnb hout => ?_⟩
  rw [flush_of_empty _ hnb, hout, List.append_assoc, List.take_left, List.drop_left, markLast_append_singleton,
    ← List.append_assoc]

end Sys2Proof.Machine
end

section
/-! The commands that mark no byte (42_bit_packing.md R143). -/

namespace Sys2Proof.Machine

open Sys2Proof.Reference

/-- `new` is `old` and then unmarked bytes, or none. -/
def ExtendsUnmarked (old new : List OutByte) : Prop :=
  ∃ bs, new = old ++ bs ∧ ∀ x ∈ bs, x.last = false

theorem ExtendsUnmarked.refl (out : List OutByte) : ExtendsUnmarked out out := ⟨[], by simp, nofun⟩

theorem ExtendsUnmarked.trans {a b c : List OutByte} (hab : ExtendsUnmarked a b) (hbc : ExtendsUnmarked b c) :
    ExtendsUnmarked a c := by
  obtain ⟨bs, rfl, hbs⟩ := hab
  obtain ⟨cs, rfl, hcs⟩ := hbc
  exact ⟨bs ++ cs, List.append_assoc .., List.forall_mem_append.2 ⟨hbs, hcs⟩⟩

/-- 42_bit_packing.md R140: `EMIT` delivers its bytes with `last` = 0, whatever the state and the code. -/
theorem extendsUnmarked_emit (code w : Nat) (s : State) : ExtendsUnmarked s.out (emit code w s).out :=
  ⟨_, rfl, fun _ hx => plainBytes_last (outBytes_eq_plainBytes .. ▸ hx)⟩

theorem extendsUnmarked_clearIfFull (s : State) : ExtendsUnmarked s.out (clearIfFull s).out := by
  unfold clearIfFull
  split
  · exact extendsUnmarked_emit ..
  · exact .refl _

theorem extendsUnmarked_missIndex (k : Arg) (s : State) : ExtendsUnmarked s.out (missIndex k s).out := by
  refine (extendsUnmarked_emit s.cur.toNat s.cw.toNat s).trans ?_
  simpa [missIndex] using
    extendsUnmarked_clearIfFull (growWidth s.next.toNat (addEntry k (emit s.cur.toNat s.cw.toNat s)))

/-- The one byte-delivering act of `START` is the `EMIT` of CLEAR. -/
theorem execStart_extendsUnmarked {cts : Arg} {s t : State} (h : execStart cts s = .next t) :
    ExtendsUnmarked s.out t.out := by
  obtain ⟨-, rfl⟩ | ⟨-, rfl⟩ | ⟨-, -, rfl⟩ | ⟨-, -, rfl⟩ := execStart_cases h
  · exact .refl _
  · exact .refl _
  · exact extendsUnmarked_emit _ _ (openFrame cts s)
  · exact .refl _

theorem execSym_extendsUnmarked {k : Arg} {s t : State} (h : execSym k s = .next t) : ExtendsUnmarked s.out t.out := by
  obtain ⟨-, rfl⟩ | ⟨-, -, hout, -⟩ := execSym_misses_or_keeps h
  · exact extendsUnmarked_missIndex k s
  · exact hout ▸ .refl _

theorem execEnd_extendsUnmarked {s t : State} (hst : s.st ≠ .active) (h : execEnd s = .next t) :
    ExtendsUnmarked s.out t.out := by
  obtain ⟨-, rfl⟩ | ⟨-, rfl⟩ | ⟨hactive, -⟩ := execEnd_cases h
  · exact .refl _
  · exact .refl _
  · exact absurd hactive hst

/-- Settles O43, by the kind of the command. -/
theorem onlyEndMarksAByte : Obligations.OnlyEndMarksAByte := by
  intro i s t h hnot
  obtain ⟨cts, -, hstart⟩ | ⟨k, -, hsym⟩ | ⟨hi, hend⟩ | ⟨-, rfl⟩ := exec_cases h
  · exact execStart_extendsUnmarked hstart
  · exact execSym_extendsUnmarked hsym
  · exact execEnd_extendsUnmarked (hnot.resolve_left (absurd hi)) hend
  · exact (takeIllegal_out s).symm ▸ ExtendsUnmarked.refl s.out

end Sys2Proof.Machine
end

section
/-! How many bytes a command delivers (42_bit_packing.md R144). -/

namespace Sys2Proof.Reference

open Sys2Proof.Machine

/-- 42_bit_packing.md R144: an emission delivers one byte for each eight bits of the pending ones and its codes. -/
theorem Emitted.out_length {codes : List (Nat × Nat)} {s t : State} (h : Emitted codes s t) :
    t.out.length = s.out.length + (s.nb.toNat + streamBits codes) / 8 := by
  rw [h.out, List.length_append, plainBytes_length]
  rfl

end Sys2Proof.Reference

namespace Sys2Proof.Machine

open Sys2Proof.Reference

/-- CLEAR, of at most 9 bits, goes out from an empty packer. -/
theorem execStart_out_length_le {cts : Arg} {s t : State} (h : execStart cts s = .next t) :
    t.out.length ≤ s.out.length + 1 := by
  obtain ⟨-, rfl⟩ | ⟨-, rfl⟩ | ⟨-, hcts, rfl⟩ | ⟨-, -, rfl⟩ := execStart_cases h
  · exact Nat.le_succ _
  · exact Nat.le_succ _
  · obtain ⟨hout, -, -⟩ := beginFrame_packer hcts s
    have hm := minCodeSize_le_eight hcts
    rw [hout, List.length_append, plainBytes_length]
    omega
  · exact Nat.le_succ _

/-- A miss emits at most two codes of at most 12 bits, above at most 7 pending bits. -/
theorem missIndex_out_length_le {s : State} (k : Arg) (h : WidthsHold s) (hpv : s.pv = true) :
    (missIndex k s).out.length ≤ s.out.length + 3 := by
  obtain ⟨-, -, -, -, -, -, -, -, hgrown, hcleared⟩ := missIndex_fields k h hpv
  have hnb := s.nb.isLt
  have hcw := h.cwHigh
  obtain hnext | hnext := Nat.lt_or_eq_of_le h.nextHigh
  · obtain ⟨hemitted, -⟩ := hgrown hnext
    rw [hemitted.out_length]
    simp only [streamBits]
    omega
  · obtain ⟨-, -, hemitted, -⟩ := hcleared hnext
    rw [hemitted.out_length]
    simp only [streamBits]
    omega

theorem execSym_out_length_le {k : Arg} {s t : State} (hinv : Inv s) (h : execSym k s = .next t) :
    t.out.length ≤ s.out.length + 3 := by
  obtain ⟨⟨hactive, -, hpv, -⟩, rfl⟩ | ⟨-, -, hout, -⟩ := execSym_misses_or_keeps h
  · exact missIndex_out_length_le k ((hinv.activeConfigured hactive).widthsHold hinv.accWithin) hpv
  · exact hout ▸ Nat.le_add_right ..

/-- Settles O44; the bounds for `END` are those of O32, whose marked byte is the fourth at the most. -/
theorem bytesPerStep : Obligations.BytesPerStep := by
  refine fun s t hinv => ⟨fun _ h => execStart_out_length_le h, fun _ h => execSym_out_length_le hinv h,
    fun h hactive => ?_⟩
  obtain ⟨bs, b, hout, -, hlen⟩ := endDeliversAMarkedByte s t hinv hactive h
  rw [hout, List.length_append, List.length_append, List.length_singleton]
  omega

end Sys2Proof.Machine
end

section
/-! The faults, an equation for each check of 60_exceptions.md R156 that the sections above do not have. -/

namespace Sys2Proof.Machine

section
variable {s : State}

theorem exec_sym_of_idle (h : s.st = .idle) (k : Arg) : exec (.sym k) s = .next (raiseFault .protocol s) := by
  simp [exec, execSym, h]

theorem exec_sym_of_outside (h : s.st = .active) {k : Arg} (hk : s.cts.toNat ≤ k.toNat) :
    exec (.sym k) s = .next (raiseFault .badIndex s) := by
  have hillegal : indexIsLegal k s.cts ≠ true := mt (indexIsLegal_iff k s.cts).1 hk.not_gt
  simp [exec, execSym, h, hillegal]

theorem exec_reserved_of_ne (h : s.st ≠ .err) {i : Instr} (hi : isReserved i = true) :
    exec i s = .next (raiseFault .illegalCmd s) := by
  rw [exec_reserved hi, takeIllegal_of_ne h]

end

/-- Settles O18. -/
theorem errIgnoresEveryCommand : Obligations.ErrIgnoresEveryCommand := fun i _ hst => exec_of_err hst i

/-- Settles O17. -/
theorem reservedCommandsTakeIllegalCmd : Obligations.ReservedCommandsTakeIllegalCmd := by
  intro s a hst
  and_intros <;> exact exec_reserved_of_ne hst rfl

/-- Settles O16. -/
theorem protocolFaults : Obligations.ProtocolFaults :=
  fun _ => ⟨exec_start_of_active, exec_sym_of_idle, exec_end_of_idle⟩

/-- Settles O11: the command's equation decides, in the state with the event consumed. -/
theorem faultChecksInOrder : Obligations.FaultChecksInOrder := by
  intro s w rest hinput
  obtain ⟨hstart, hsym, hend⟩ := protocolFaults (s.withInput rest)
  rw [step_cmd hinput]
  refine ⟨fun hst => exec_of_err (s := s.withInput rest) hst _,
    fun hst hres => exec_reserved_of_ne (s := s.withInput rest) hst hres,
    fun cts hw => ?_, fun k hw => ?_, fun hw => ?_⟩
  · rw [hw]
    exact ⟨fun hst => hstart hst cts, fun hst hcts => exec_start_of_not_isTableSize (s := s.withInput rest) hst hcts⟩
  · rw [hw]
    exact ⟨fun hst => hsym hst k, fun hst hk => exec_sym_of_outside (s := s.withInput rest) hst hk⟩
  · rw [hw]
    exact hend

/-- 60_exceptions.md R152: the 9-bit operand holds no power of two above 256. -/
theorem isTableSize_iff_two_pow (cts : Arg) : IsTableSize cts ↔ ∃ n, 1 ≤ n ∧ cts.toNat = 2 ^ n := by
  constructor
  · rintro ⟨n, hn1, -, hn⟩
    exact ⟨n, hn1, hn⟩
  · rintro ⟨n, hn1, hn⟩
    have hlt : n < 9 := (Nat.pow_lt_pow_iff_right Nat.one_lt_two).1 (hn ▸ cts.isLt)
    exact ⟨n, hn1, Nat.le_of_lt_succ hlt, hn⟩

/-- Settles O14: with a legal size the frame is open afterwards. -/
theorem badCtsExactlyForIllegalSizes : Obligations.BadCtsExactlyForIllegalSizes := by
  intro cts s hst
  rw [← isTableSize_iff_two_pow]
  refine ⟨fun hfault hcts => ?_, exec_start_of_not_isTableSize hst⟩
  obtain ⟨hopens, -⟩ := execStart_st hfault
  cases hopens hst hcts

/-- Settles O15: with a legal index the frame stays open. -/
theorem badIndexExactlyOutsideTheAlphabet : Obligations.BadIndexExactlyOutsideTheAlphabet := by
  intro k s hst
  refine ⟨fun hfault => Nat.le_of_not_lt fun hk => ?_, exec_sym_of_outside hst⟩
  obtain ⟨-, hstays, -⟩ := execSym_st hfault
  cases hstays hst hk

end Sys2Proof.Machine
end

section
/-! The fault of a command as a function of the command, `ST` and `CTS` (60_exceptions.md R160). -/

namespace Sys2Proof.Machine

/-- The fault a command takes, if it takes one: the checks of 60_exceptions.md R156 in their order. -/
def faultCode (i : Instr) (st : St) (cts : BitVec 9) : Option ErrCode :=
  if st = .err then none
  else if isReserved i then some .illegalCmd
  else match i, st with
    | .start _, .active => some .protocol
    | .sym _, .idle => some .protocol
    | .endCmd, .idle => some .protocol
    | .start n, _ => if ctsIsLegal n then none else some .badCts
    | .sym k, _ => if indexIsLegal k cts then none else some .badIndex
    | _, _ => none

/-- `t` is what `faultCode` lets `i` answer in `s`: the fault and nothing else (60_exceptions.md R157), or no fault. -/
def FaultsAsCoded (i : Instr) (s t : State) : Prop :=
  (∃ c, faultCode i s.st s.cts = some c ∧ c ≠ .noFault ∧ t = faulted s c) ∨
  (faultCode i s.st s.cts = none ∧ t.st ≠ .err)

section
variable {s t : State}

theorem execStart_faultsAsCoded {cts : Arg} (hst : s.st ≠ .err) (h : execStart cts s = .next t) :
    FaultsAsCoded (.start cts) s t := by
  obtain ⟨herr, -⟩ | ⟨hactive, rfl⟩ | ⟨hidle, hcts, rfl⟩ | ⟨hidle, hcts, rfl⟩ := execStart_cases h
  · exact absurd herr hst
  · exact .inl ⟨.protocol, by simp [faultCode, isReserved, hactive], nofun, rfl⟩
  · exact .inr ⟨by simp [faultCode, isReserved, hidle, (ctsIsLegal_iff cts).2 hcts], nofun⟩
  · exact .inl ⟨.badCts, by simp [faultCode, isReserved, hidle, ctsIsLegal_iff, hcts], nofun, rfl⟩

theorem execSym_faultsAsCoded {k : Arg} (hst : s.st ≠ .err) (h : execSym k s = .next t) :
    FaultsAsCoded (.sym k) s t := by
  have hlegal (hactive : s.st = .active) (hk : k.toNat < s.cts.toNat) : faultCode (.sym k) s.st s.cts = none := by
    simp [faultCode, isReserved, hactive, (indexIsLegal_iff k s.cts).2 hk]
  obtain ⟨herr, -⟩ | ⟨hidle, rfl⟩ | ⟨hactive, hk, rfl⟩ | ⟨hactive, hk, -, rfl⟩ | ⟨hactive, hk, -, c, -, rfl⟩ |
    ⟨hactive, hk, -, -, -, rfl⟩ := execSym_cases h
  · exact absurd herr hst
  · exact .inl ⟨.protocol, by simp [faultCode, isReserved, hidle], nofun, rfl⟩
  · exact .inl ⟨.badIndex, by simp [faultCode, isReserved, hactive, indexIsLegal_iff, hk], nofun, rfl⟩
  · exact .inr ⟨hlegal hactive hk, hst⟩
  · exact .inr ⟨hlegal hactive hk, hst⟩
  · exact .inr ⟨hlegal hactive hk, by simp [hactive]⟩

theorem execEnd_faultsAsCoded (hst : s.st ≠ .err) (h : execEnd s = .next t) : FaultsAsCoded .endCmd s t := by
  obtain ⟨herr, -⟩ | ⟨hidle, rfl⟩ | ⟨hactive, rfl⟩ := execEnd_cases h
  · exact absurd herr hst
  · exact .inl ⟨.protocol, by simp [faultCode, isReserved, hidle], nofun, rfl⟩
  · exact .inr ⟨by simp [faultCode, isReserved, hactive], nofun⟩

/-- `faultCode` is the machine's: outside `ERR` a command takes that fault, or no fault when there is none. -/
theorem exec_faultsAsCoded {i : Instr} (hst : s.st ≠ .err) (h : exec i s = .next t) : FaultsAsCoded i s t := by
  obtain ⟨cts, rfl, hstart⟩ | ⟨k, rfl, hsym⟩ | ⟨rfl, hend⟩ | ⟨hres, rfl⟩ := exec_cases h
  · exact execStart_faultsAsCoded hst hstart
  · exact execSym_faultsAsCoded hst hsym
  · exact execEnd_faultsAsCoded hst hend
  · rw [takeIllegal_of_ne hst]
    exact .inl ⟨.illegalCmd, by simp [faultCode, hst, hres], nofun, rfl⟩

/-- `ST` and `ERRC` afterwards tell what `faultCode` is. -/
theorem FaultsAsCoded.faultCode_eq {i : Instr} (h : FaultsAsCoded i s t) :
    faultCode i s.st s.cts = if t.st = .err then some t.errc else none := by
  obtain ⟨c, hcode, -, rfl⟩ | ⟨hcode, hne⟩ := h
  · exact hcode
  · rw [hcode, if_neg hne]

end

/-- Settles O12: `ST` and `ERRC` afterwards tell the same `faultCode` in both states. -/
theorem faultsDependOnStAndCtsAlone : Obligations.FaultsDependOnStAndCtsAlone := by
  intro i s s' t t' hst hcts hne h h'
  have hcode := (exec_faultsAsCoded hne h).faultCode_eq
  have hcode' := (exec_faultsAsCoded (hst ▸ hne) h').faultCode_eq
  rw [← hst, ← hcts, hcode] at hcode'
  split_ifs at hcode' with herr herr' herr'
  · exact ⟨iff_of_true herr herr', fun _ => Option.some.inj hcode'⟩
  · exact ⟨iff_of_false herr herr', fun hfault => absurd hfault herr⟩

/-- Settles O13: a fault is `faulted`, and `ERR` ignores what comes later. -/
theorem faultEntryChangesOnlyStAndErrc : Obligations.FaultEntryChangesOnlyStAndErrc := by
  intro i s t hne h herr
  obtain ⟨c, -, hc, rfl⟩ | ⟨-, hst⟩ := exec_faultsAsCoded hne h
  · exact ⟨rfl, hc, rfl, rfl, fun j u hu => Host.Outcome.next.inj (hu.symm.trans (exec_of_err rfl j))⟩
  · exact absurd herr hst

end Sys2Proof.Machine
end

section
/-! A step with nothing presented, and the way out of `ERR` (60_exceptions.md R159, R166). -/

namespace Sys2Proof.Machine

/-- Settles O10. -/
theorem withoutAnEventTheBlockWaits : Obligations.WithoutAnEventTheBlockWaits := by
  intro s hinput
  simp [step, takeEvent, hinput]

/-- Settles O19, by the event presented. -/
theorem onlyResetLeavesErr : Obligations.OnlyResetLeavesErr := by
  intro s hst
  cases hinput : s.input with
  | nil =>
    refine .inr ⟨nofun, ?_⟩
    rw [withoutAnEventTheBlockWaits s hinput, List.tail_nil, ← hinput]
  | cons e rest =>
    cases e with
    | reset =>
      obtain ⟨t, hreset⟩ := resetSetsEveryRegister s rest hinput
      exact .inl ⟨rest, t, rfl, hreset⟩
    | cmd w =>
      refine .inr ⟨nofun, ?_⟩
      rw [step_cmd hinput]
      exact exec_of_err (s := s.withInput rest) hst (decode w)

end Sys2Proof.Machine
end

section
/-! The whole state a RESET event leaves (70_reset_and_hazards.md R180, 20_memory.md R56). -/

namespace Sys2Proof.Machine

/-- Settles O9: `step_reset` gives the next state of a RESET event whole, `DICT` and the environment's part included. -/
theorem resetGivesTheResetState : Obligations.ResetGivesTheResetState :=
  fun _ _ hinput => step_reset hinput

end Sys2Proof.Machine
end
